-- ==== Sys2Proof/Word.lean ====
section
/-!
DEFINITION. The words of the block (spec/00_scope.md R8, R9; spec/10_state.md R29 to R31). A bit vector is numbered
from its least significant bit, bit 0, as Lean's `BitVec` is. Exponents are mathematical integers (`Int`), which the
spec allows because every exponent a rule computes stays far inside 64 bits (R9, R31).
-/

namespace Sys2Proof

/-- A binary128 pattern, and the width of every operand and result port (R6 `FLEN`, R29). -/
abbrev Float128 := BitVec 128

/-- A 128-bit unsigned integer: a lane, a limb, a divisor, a quotient (R9, R100). -/
abbrev U128 := BitVec 128

/-- A 256-bit unsigned integer: a frame, a product, a dividend (R9, R100). -/
abbrev U256 := BitVec 256

/-- A 64-bit digit of the divider (R9). -/
abbrev U64 := BitVec 64

/-- A significand `{L, frac}` (R6 `SIG_BITS`, R82). -/
abbrev Sig := BitVec 113

end Sys2Proof
end

