-- ==== Sys2Proof/Config.lean ====
section
/-!
DEFINITION. The parameters of spec/00_scope.md R6 (fixed) and R7 (open). `DEFAULT_QNAN`, which the spec decides
(R152, decision D6), is `Sys2Proof.Machine.defaultQNaN` in Machine/Operands.lean.
-/

namespace Sys2Proof.Config

/-- `BIAS` of R6. -/
def bias : Int := 16383

/-- `EXP_SPECIAL` of R6, as an integer. -/
def expSpecial : Int := 0x7FFF

/-- `LATENCY` of R7: OPEN, and read by no rule. The optional wrapper takes a latency as an argument (Machine/Wrapper.lean);
this constant is the one an implementation fixes (log entry 7). -/
opaque latency : Nat

/-- `result_o` of the optional wrapper in a cycle with `valid_o = 0` (R28, U3 `any value`): a free value, one for each cycle
number. The block itself never reads it (log entry 7). -/
opaque idleResult : Nat → Float128

/-- What the optional wrapper drives for a reserved command accepted in that cycle (R63: unspecified): a free value, one for
each cycle number. The block itself refuses the command (log entries 4 and 7). -/
opaque reservedResult : Nat → Float128

end Sys2Proof.Config
end

