-- ==== Sys2Proof/Syntax.lean ====
section
/-!
DEFINITION. The twelve operations of spec/30_encoding.md R60, one constructor a row of spec/opcode_table.json. A row has
no operand field: every operand is a whole port value (R61), so the constructors carry no argument.
-/

namespace Sys2Proof

/-- The two rounding policies (R3): round-to-nearest-ties-to-even and round-to-odd. -/
inductive Rounding where
  | rne
  | ro
  deriving DecidableEq, Repr

/-- The six functions of the field `fn` (R60). -/
inductive Fn where
  | add
  | sub
  | mul
  | div
  | fma
  | fms
  deriving DecidableEq, Repr

/-- The operation map of R60: mnemonic `ADDQ.RNE` is `addqRne`, and so on. -/
inductive Instr where
  | addqRne
  | subqRne
  | mulqRne
  | divqRne
  | fmaqRne
  | fmsqRne
  | addqRo
  | subqRo
  | mulqRo
  | divqRo
  | fmaqRo
  | fmsqRo
  deriving DecidableEq, Repr

/-- What the decoder answers: an instruction, or the name of what it refuses. -/
inductive Decoded where
  /-- the command selects the instruction `i` -/
  | instr (i : Instr)
  /-- `fn` is 6 or 7: the command selects no operation (R63) -/
  | reserved (op : BitVec 4)
  /-- the number has a 1 above bit 3: no value of the 4-bit port (R26, R61; log entry 5) -/
  | notACommand (w : Nat)
  deriving DecidableEq, Repr

/-- The rounding policy of an instruction (R60 `rm`). -/
def Instr.mode : Instr → Rounding
  | .addqRne => .rne
  | .subqRne => .rne
  | .mulqRne => .rne
  | .divqRne => .rne
  | .fmaqRne => .rne
  | .fmsqRne => .rne
  | .addqRo => .ro
  | .subqRo => .ro
  | .mulqRo => .ro
  | .divqRo => .ro
  | .fmaqRo => .ro
  | .fmsqRo => .ro

/-- The function of an instruction (R60 `fn`). -/
def Instr.fn : Instr → Fn
  | .addqRne => .add
  | .subqRne => .sub
  | .mulqRne => .mul
  | .divqRne => .div
  | .fmaqRne => .fma
  | .fmsqRne => .fms
  | .addqRo => .add
  | .subqRo => .sub
  | .mulqRo => .mul
  | .divqRo => .div
  | .fmaqRo => .fma
  | .fmsqRo => .fms

/-- The fused operations take a third operand, the others do not (R27, R60). -/
def Fn.fused : Fn → Bool
  | .add => false
  | .sub => false
  | .mul => false
  | .div => false
  | .fma => true
  | .fms => true

end Sys2Proof
end

