-- ==== Sys2Proof/WellFormed.lean ====
section
/-!
DEFINITION. Well-formedness. An instruction of this block has no operand field, so each of the twelve constructors is
well formed (spec/30_encoding.md R61). What can be ill formed is a command word: `fn` = 6 or 7 is reserved (R63), and a
number with a 1 above bit 3 is no value of the 4-bit port.
-/

namespace Sys2Proof

/-- A command word that selects an operation: its field `fn` (bits 2:0) is 0 to 5 (R60, R63). -/
def commandWellFormed (op : BitVec 4) : Bool :=
  decide ((op.extractLsb' 0 3).toNat < 6)

/-- A number that is a value of the 4-bit command port and selects an operation. -/
def wordWellFormed (w : Nat) : Bool :=
  decide (w < 16) && commandWellFormed (BitVec.ofNat 4 w)

end Sys2Proof
end

