-- ==== Sys2Proof/Decode.lean ====
section
/-!
DEFINITION. Decoding and encoding the command word `CMD4` (spec/30_encoding.md R60 to R63, spec/opcode_table.json):
`rm` is bit 3, `fn` is bits 2:0. The decoder is total; what selects no operation is rejected by name.
-/

namespace Sys2Proof

/-- The instruction that a function and a rounding policy name (R60). -/
def instrOf : Rounding → Fn → Instr
  | .rne, .add => .addqRne
  | .rne, .sub => .subqRne
  | .rne, .mul => .mulqRne
  | .rne, .div => .divqRne
  | .rne, .fma => .fmaqRne
  | .rne, .fms => .fmsqRne
  | .ro, .add => .addqRo
  | .ro, .sub => .subqRo
  | .ro, .mul => .mulqRo
  | .ro, .div => .divqRo
  | .ro, .fma => .fmaqRo
  | .ro, .fms => .fmsqRo

/-- The field `rm`, bit 3: 0 is RNE and 1 is RO (R60). -/
def decodeRm (op : BitVec 4) : Rounding :=
  if op.getLsbD 3 then .ro else .rne

/-- The field `fn`, bits 2:0: 0 ADD, 1 SUB, 2 MUL, 3 DIV, 4 FMA, 5 FMS, 6 and 7 reserved (R60). -/
def decodeFn (op : BitVec 4) : Option Fn :=
  let fn := op.extractLsb' 0 3
  if fn = 0#3 then some .add
  else if fn = 1#3 then some .sub
  else if fn = 2#3 then some .mul
  else if fn = 3#3 then some .div
  else if fn = 4#3 then some .fma
  else if fn = 5#3 then some .fms
  else none

/-- The decoder of the command port. A reserved command is rejected by name (R63). -/
def decode (op : BitVec 4) : Decoded :=
  match decodeFn op with
  | some f => .instr (instrOf (decodeRm op) f)
  | none => .reserved op

/-- The decoder on any number. One with a 1 above bit 3 is no command word (log entry 5). -/
def decodeWord (w : Nat) : Decoded :=
  if w < 16 then decode (BitVec.ofNat 4 w) else .notACommand w

/-- The instruction the decoder reads from a table word of `nbits` bits; `none` where it rejects. -/
def decodeTableWord (nbits w : Nat) : Option Instr :=
  match decodeWord (w % 2 ^ nbits) with
  | .instr i => some i
  | .reserved _ => none
  | .notACommand _ => none

/-- The value of the field `rm` (R60). -/
def encodeRm : Rounding → BitVec 1
  | .rne => 0#1
  | .ro => 1#1

/-- The value of the field `fn` (R60). -/
def encodeFn : Fn → BitVec 3
  | .add => 0#3
  | .sub => 1#3
  | .mul => 2#3
  | .div => 3#3
  | .fma => 4#3
  | .fms => 5#3

/-- The command word of an instruction: `{rm, fn}` (R60). -/
def encode (i : Instr) : BitVec 4 :=
  encodeRm i.mode ++ encodeFn i.fn

end Sys2Proof
end

