-- ==== Sys2Proof/Machine/State.lean ====
section
/-!
DEFINITION. The state. The block has no register, no program counter, no flag and no memory (spec/10_state.md R20 to
R25); State holds the values its ports carry (R26) and nothing else (log entry 1).
-/

namespace Sys2Proof.Machine

/-- The ports of R26: the four input ports, which the requester drives, and the result port, which the block drives. -/
structure State where
  /-- the command word (R26, R60) -/
  op_i : BitVec 4
  /-- the first operand (R26) -/
  a_i : Float128
  /-- the second operand (R26) -/
  b_i : Float128
  /-- the third operand of the fused operations, ignored by the others (R26, R27) -/
  c_i : Float128
  /-- the result of the request answered last (R26) -/
  result_o : Float128
  deriving DecidableEq, Repr

/-- Why the machine could stop with a fault: never. "No operation raises an exception, sets a flag, returns an error code
or fails to return" (spec/60_exceptions.md R230), so the type is empty (log entry 6). Nothing raises one; safe, since a
fault could only make the model stop earlier than the block. -/
inductive Fault where
  deriving DecidableEq, Repr

/-- Why a step has no meaning. -/
inductive Refusal where
  /-- `step` refuses the reserved command `op` (`fn` = 6 or 7): it selects no operation, `result_o` is unspecified and the
  spec has the model refuse it (R63, U1; log entry 4). Safe: the block goes on with some value, of which nothing is
  claimed. -/
  | reservedCommand (op : BitVec 4)
  /-- `exec` refuses an instruction that has no meaning yet. No arm does. Safe. -/
  | notModelled (mnemonic : String)
  deriving DecidableEq, Repr

/-- The ports before the first request. The spec gives no value (there is no state to reset, R33, R250): zero on every
port, and `result_o` is then what the block answers to that request, (+0) + (+0) = +0 (log entry 2). -/
def State.reset : State :=
  { op_i := 0#4, a_i := 0#128, b_i := 0#128, c_i := 0#128, result_o := 0#128 }

end Sys2Proof.Machine
end

