-- ==== Sys2Proof/Machine/Ops.lean ====
section
/-!
DEFINITION. The named operations over the ports, and the wide-integer abstraction of spec/41_datapath_units.md R100 to
R105. The block makes no memory access (spec/20_memory.md R40), takes no exception and returns from none
(spec/60_exceptions.md R230, R235, R236), so there is no operation for any of these.
-/

namespace Sys2Proof.Machine

/-- Drive `v` on the result port (R26). No other port changes. -/
def State.respond (s : State) (v : Float128) : State :=
  { s with result_o := v }

/-- The requester presents a command and three operands (R26, R241). The result port keeps the last answer. -/
def State.present (s : State) (op : BitVec 4) (a b c : Float128) : State :=
  { s with op_i := op, a_i := a, b_i := b, c_i := c }

/-- `OR(v)` of R10: some bit of `v` is 1. -/
def orBits {n : Nat} (v : BitVec n) : Bool :=
  v != 0#n

/-- The high limb of a 256-bit integer (R100). -/
def hiLimb (v : U256) : U128 :=
  v.extractLsb' 128 128

/-- The low limb of a 256-bit integer (R100). -/
def loLimb (v : U256) : U128 :=
  v.extractLsb' 0 128

/-- `addc(x, y, cin) = (s, cout)` on 128-bit limbs (R101). -/
def addc (x y : U128) (cin : Bool) : U128 × Bool :=
  (x + y + BitVec.setWidth 128 (BitVec.ofBool cin),
    decide (2 ^ 128 ≤ x.toNat + y.toNat + cin.toNat))

/-- `subb(x, y, bin) = (d, bout)` on 128-bit limbs (R101). -/
def subb (x y : U128) (bin : Bool) : U128 × Bool :=
  (x - y - BitVec.setWidth 128 (BitVec.ofBool bin),
    decide (x.toNat < y.toNat + bin.toNat))

/-- `add256` of R101: the low limbs first, their carry into the high limbs; the carry-out beside the sum. -/
def add256 (v w : U256) : U256 × Bool :=
  let lo := addc (loLimb v) (loLimb w) false
  let hi := addc (hiLimb v) (hiLimb w) lo.2
  (hi.1 ++ lo.1, hi.2)

/-- `sub256` of R101: the low limbs first, their borrow into the high limbs; the borrow-out beside the difference. -/
def sub256 (v w : U256) : U256 × Bool :=
  let lo := subb (loLimb v) (loLimb w) false
  let hi := subb (hiLimb v) (hiLimb w) lo.2
  (hi.1 ++ lo.1, hi.2)

/-- `clz_N(v)` of R10 and R102: the zero bits above the most significant 1 bit, and `N` for 0 (log entry 8). -/
def clz {n : Nat} (v : BitVec n) : Nat :=
  if v = 0#n then n else n - 1 - v.toNat.log2

/-- `clz_256` by limbs, as R102 writes it. -/
def clz256 (v : U256) : Nat :=
  if hiLimb v ≠ 0#128 then clz (hiLimb v) else 128 + clz (loLimb v)

/-- `shift_right_sticky` of R103: the shifted value, and whether a 1 bit was shifted out. The amount is never negative
(log entry 8). -/
def srs {n : Nat} (v : BitVec n) (d : Nat) : BitVec n × Bool :=
  if d = 0 then (v, false)
  else if d < n then (v >>> d, orBits (v.setWidth d))
  else (0#n, orBits v)

/-- `jam_N(v, d)` of R105: the sticky bit of the shift ORed into bit 0. -/
def jam {n : Nat} (v : BitVec n) (d : Nat) : BitVec n :=
  let p := srs v d
  p.1 ||| BitVec.setWidth n (BitVec.ofBool p.2)

end Sys2Proof.Machine
end

