-- ==== Sys2Proof/Machine/Operands.lean ====
section
/-!
DEFINITION. The binary128 format (spec/30_encoding.md R55 to R59), the operand_decomposer and the
floating_point_classifier (spec/40_decompose_classify.md R80 to R89), and the named patterns the rules use.
-/

namespace Sys2Proof.Machine

/-- The sign, bit 127 (R55, R80). -/
def signOf (x : Float128) : Bool :=
  x.getLsbD 127

/-- The biased exponent, bits 126:112 (R55, R80). -/
def bexpOf (x : Float128) : BitVec 15 :=
  x.extractLsb' 112 15

/-- The fraction, bits 111:0 (R55, R80). -/
def fracOf (x : Float128) : BitVec 112 :=
  x.extractLsb' 0 112

/-- `Pack(s, bexp, frac)` of R89. -/
def pack (s : Bool) (bexp : BitVec 15) (frac : BitVec 112) : Float128 :=
  BitVec.ofBool s ++ (bexp ++ frac)

/-- The six classes of R81. -/
inductive Cls where
  | zero
  | subnormal
  | normal
  | infinity
  | qNaN
  | sNaN
  deriving DecidableEq, Repr

/-- The classifier, R81: the exponent and the fraction decide, the sign plays no part. -/
def cls (x : Float128) : Cls :=
  if bexpOf x = 0#15 then
    if fracOf x = 0#112 then .zero else .subnormal
  else if bexpOf x = 0x7FFF#15 then
    if fracOf x = 0#112 then .infinity
    else if (fracOf x).getLsbD 111 then .qNaN
    else .sNaN
  else .normal

/-- `sig = {L, frac}`, the leading bit 1 for a Normal operand only (R82). -/
def sigOf (x : Float128) : Sig :=
  BitVec.ofBool (cls x == .normal) ++ fracOf x

/-- `exp_eff`: 1 for an exponent field of 0, else the field (R83). -/
def expOf (x : Float128) : Int :=
  if bexpOf x = 0#15 then 1 else ((bexpOf x).toNat : Int)

/-- The decomposer's output record `(sign, exp_eff, sig, cls)` (R84). -/
structure Decomposed where
  sign : Bool
  exp : Int
  sig : Sig
  cls : Cls
  deriving DecidableEq, Repr

/-- `Decompose(x)` of R84. -/
def decompose (x : Float128) : Decomposed :=
  { sign := signOf x, exp := expOf x, sig := sigOf x, cls := cls x }

/-- `isNaN` of R86. -/
def isNaN (x : Float128) : Bool :=
  cls x == .qNaN || cls x == .sNaN

/-- `isSNaN` of R86. -/
def isSNaN (x : Float128) : Bool :=
  cls x == .sNaN

/-- `isInf` of R86. -/
def isInf (x : Float128) : Bool :=
  cls x == .infinity

/-- `isZero` of R86. -/
def isZero (x : Float128) : Bool :=
  cls x == .zero

/-- `isFinite` of R86. -/
def isFinite (x : Float128) : Bool :=
  cls x == .zero || cls x == .subnormal || cls x == .normal

/-- `isNonzeroFinite` of R86. -/
def isNonzeroFinite (x : Float128) : Bool :=
  cls x == .subnormal || cls x == .normal

/-- `SignedZero(s)` of R59. -/
def signedZero (s : Bool) : Float128 :=
  BitVec.ofBool s ++ 0#127

/-- `SignedInf(s)` of R59. -/
def signedInf (s : Bool) : Float128 :=
  pack s 0x7FFF#15 0#112

/-- `SignedMaxFin(s)` of R59. -/
def signedMaxFin (s : Bool) : Float128 :=
  pack s 0x7FFE#15 (BitVec.allOnes 112)

/-- `DEFAULT_QNAN`: the value the spec decides (R59, R152, decision D6; log entry 3). Every rule that yields it names
this constant, so its value stands in one place. -/
def defaultQNaN : Float128 :=
  0x7FFF8000000000000000000000000000#128

/-- `quiet(x) = x | (1 << 111)` (R151). -/
def quiet (x : Float128) : Float128 :=
  x ||| (1#128 <<< 111)

/-- `x xor (1 << 127)`: the sign flip of the subtract forms (R172, R212). -/
def negate (x : Float128) : Float128 :=
  x ^^^ (1#128 <<< 127)

/-- The effective second operand or addend: negated for a subtract form (R153, R156, R172, R212). -/
def effective (isSub : Bool) (x : Float128) : Float128 :=
  if isSub then negate x else x

/-- `OperationResult` of R32: a value to return directly, or the input of NormRoundPack. -/
inductive OperationResult where
  | special (v : Float128)
  | finite (s : Bool) (e : Int) (m : U256) (x : Bool)
  deriving DecidableEq, Repr

end Sys2Proof.Machine
end

