-- ==== Sys2Proof/Machine/Datapath.lean ====
section
/-!
DEFINITION. The integer datapath units of spec/41_datapath_units.md: layouts (R109), significand_aligner (R106, R107),
extended_multiplier (R108), extended_divider (R110 to R113).
-/

namespace Sys2Proof.Machine

/-- An operand's significand as a lane, `zext_128(sig) << 14` (R109). -/
def laneOf (m : Sig) : U128 :=
  m.setWidth 128 <<< 14

/-- A lane as a frame, `{r, 128'b0}` (R109). -/
def frameOfLane (r : U128) : U256 :=
  r ++ 0#128

/-- A multiplier operand or the divisor, `zext_128(sig) << 15` (R109). -/
def factorOf (m : Sig) : U128 :=
  m.setWidth 128 <<< 15

/-- The dividend or the fused addend, `zext_256(sig) << 142` (R109). -/
def frameOf (m : Sig) : U256 :=
  m.setWidth 256 <<< 142

/-- `Align128` of R106. -/
def align128 (laneSmall : U128) (d : Nat) : U128 :=
  jam laneSmall d

/-- `Align256` of R107. -/
def align256 (frameSmall : U256) (d : Nat) : U256 :=
  jam frameSmall d

/-- `Mul128` by its contract, the exact 256-bit product (R108). -/
def mul128 (x y : U128) : U256 :=
  x.setWidth 256 * y.setWidth 256

/-- The limb-wise form R108 gives as an illustration: four 64 by 64 to 128 bit partial products, summed with the carries
of R101. `mul128` is what the pipelines call; that the two agree is a statement. -/
def mul128Limbs (x y : U128) : U256 :=
  let x1 := (x.extractLsb' 64 64).setWidth 128
  let x0 := (x.extractLsb' 0 64).setWidth 128
  let y1 := (y.extractLsb' 64 64).setWidth 128
  let y0 := (y.extractLsb' 0 64).setWidth 128
  let ends : U256 := (x1 * y1) ++ (x0 * y0)
  let mid1 : U256 := (x1 * y0).setWidth 256 <<< 64
  let mid2 : U256 := (x0 * y1).setWidth 256 <<< 64
  (add256 (add256 ends mid1).1 mid2).1

/-- `NarrowDiv(n, d)` of R111: floor quotient and remainder. Its precondition is `n[127:64] < d`; outside it the quotient
is truncated and nothing rests on it (U5, log entry 9). -/
def narrowDiv (n : U128) (d : U64) : U64 × U64 :=
  (BitVec.ofNat 64 (n.toNat / d.toNat), BitVec.ofNat 64 (n.toNat % d.toNat))

/-- The correction loop of R111: while the remainder is negative, lower the digit by 1 and add the divisor back. The
first argument bounds the rounds. -/
def correctDigit (d : U128) : Nat → U64 × Int → U64 × Int
  | 0, p => p
  | k + 1, (qhat, t) =>
    if t < 0 then correctDigit d k (qhat - 1#64, t + (d.toNat : Int)) else (qhat, t)

/-- The first estimate of a quotient digit, saturated where the top digits meet (R111). -/
def estimateDigit (u : BitVec 192) (d : U128) : U64 :=
  if d.extractLsb' 64 64 ≤ u.extractLsb' 128 64 then BitVec.allOnes 64
  else (narrowDiv (u.extractLsb' 64 128) (d.extractLsb' 64 64)).1

/-- `DivDigit` of R111, the general path: estimate, multiply back and subtract, correct at most twice (R256; log
entry 9). -/
def divDigitGeneral (u : BitVec 192) (d : U128) : U64 × U128 :=
  let qhat := estimateDigit u d
  let t : Int := (u.toNat : Int) - (qhat.toNat : Int) * (d.toNat : Int)
  let p := correctDigit d 2 (qhat, t)
  (p.1, BitVec.ofInt 128 p.2)

/-- `DivDigit` of R112, the fast path for a divisor whose low 64 bits are zero. -/
def divDigitFast (u : BitVec 192) (d : U128) : U64 × U128 :=
  let p := narrowDiv (u.extractLsb' 64 128) (d.extractLsb' 64 64)
  (p.1, p.2 ++ u.extractLsb' 0 64)

/-- `DivDigit` as R113 selects it. -/
def divDigit (u : BitVec 192) (d : U128) : U64 × U128 :=
  if d.extractLsb' 0 64 = 0#64 then divDigitFast u d else divDigitGeneral u d

/-- `Div256by128(N, D) = (Q, Rm)` of R110, composed of two digit steps (R113). -/
def div256by128 (n : U256) (d : U128) : U128 × U128 :=
  let r0 := n.extractLsb' 128 128
  let p1 := divDigit (r0 ++ n.extractLsb' 64 64) d
  let p0 := divDigit (p1.2 ++ n.extractLsb' 0 64) d
  (p1.1 ++ p0.1, p0.2)

end Sys2Proof.Machine
end

