-- ==== Sys2Proof/Machine/Round.lean ====
section
/-!
DEFINITION. fp_normalizer, fp_rounder and the result packer: `NormRoundPack` of spec/42_normalize_round.md R130 to R137.
-/

namespace Sys2Proof.Machine

/-- A frame on its way through the normalizer: the exponent of bit 254, the frame, and the sticky bit below it (R130). -/
structure Frame where
  exp : Int
  m : U256
  sticky : Bool
  deriving DecidableEq, Repr

/-- Step N1, the carry-out (R131). -/
def normCarry (f : Frame) : Frame :=
  if f.m.getLsbD 255 then
    { exp := f.exp + 1, m := f.m >>> 1, sticky := f.sticky || f.m.getLsbD 0 }
  else f

/-- Step N2, the tiny exponent: shift right by the deficit (R132). -/
def normTiny (f : Frame) : Frame :=
  let p := srs f.m (1 - f.exp).toNat
  { exp := 1, m := p.1, sticky := f.sticky || p.2 }

/-- Step N3, the left shift, never taking the exponent below 1 (R133). -/
def normLeft (f : Frame) : Frame :=
  let sh := min (clz f.m - 1) (f.exp - 1).toNat
  { exp := f.exp - (sh : Int), m := f.m <<< sh, sticky := f.sticky }

/-- `Normalize`: N1, then N2 for an exponent below 1, else N3 for a leading bit of 0 (R130 to R133). -/
def normalize (f : Frame) : Frame :=
  let g := normCarry f
  if g.exp < 1 then normTiny g
  else if g.m.getLsbD 254 then g
  else normLeft g

/-- `q`, the 113 retained bits (R134). -/
def retained (f : Frame) : Sig :=
  f.m.extractLsb' 142 113

/-- `G`, the first discarded bit (R134). -/
def guardBit (f : Frame) : Bool :=
  f.m.getLsbD 141

/-- `T`, the round bit and everything below it together (R134). -/
def tailBit (f : Frame) : Bool :=
  orBits (f.m.extractLsb' 0 141) || f.sticky

/-- `round_to_odd` (R135). -/
def roundToOdd (f : Frame) : Int × Sig :=
  (f.exp, retained f ||| BitVec.setWidth 113 (BitVec.ofBool (guardBit f || tailBit f)))

/-- `round_to_nearest_even` (R136). -/
def roundToNearestEven (f : Frame) : Int × Sig :=
  let inc := guardBit f && (tailBit f || (retained f).getLsbD 0)
  let q : BitVec 114 := (retained f).setWidth 114 + BitVec.setWidth 114 (BitVec.ofBool inc)
  if q.getLsbD 113 then (f.exp + 1, (q >>> 1).setWidth 113) else (f.exp, q.setWidth 113)

/-- `Round(mode, …)` (R135, R136). -/
def roundFrame (mode : Rounding) (f : Frame) : Int × Sig :=
  match mode with
  | .rne => roundToNearestEven f
  | .ro => roundToOdd f

/-- `PackResult` with the exponent overflow of each policy (R137). -/
def packResult (mode : Rounding) (s : Bool) (e : Int) (q : Sig) : Float128 :=
  if q.getLsbD 112 then
    if Config.expSpecial ≤ e then
      match mode with
      | .rne => signedInf s
      | .ro => signedMaxFin s
    else pack s (BitVec.ofInt 15 e) (q.extractLsb' 0 112)
  else pack s 0#15 (q.extractLsb' 0 112)

/-- `NormRoundPack(mode, s, e, M, x)` of R130. -/
def normRoundPack (mode : Rounding) (s : Bool) (e : Int) (m : U256) (x : Bool) : Float128 :=
  let r := roundFrame mode (normalize { exp := e, m := m, sticky := x })
  packResult mode s r.1 r.2

/-- Deliver an `OperationResult` (R32): a special value as it is, a finite one through NormRoundPack. -/
def deliver (mode : Rounding) : OperationResult → Float128
  | .special v => v
  | .finite s e m x => normRoundPack mode s e m x

end Sys2Proof.Machine
end

