-- ==== Sys2Proof/Machine/Special.lean ====
section
/-!
DEFINITION. special_value_resolver (spec/43_special_values.md R150 to R157). `some v` is the spec's `Special(v)`, `none`
its `None`: the finite path owns the result. First match wins, in the order of the rules.
-/

namespace Sys2Proof.Machine

/-- `ResolveAdd` of R153. A NaN is returned as given, quieted and not negated; the flip comes after. -/
def resolveAdd (a b : Float128) (isSub : Bool) : Option Float128 :=
  let b' := effective isSub b
  if isNaN a then some (quiet a)
  else if isNaN b then some (quiet b)
  else if isInf a && isInf b' then
    if signOf a = signOf b' then some a else some defaultQNaN
  else if isInf a then some a
  else if isInf b' then some b'
  else none

/-- `ResolveMul` of R154. -/
def resolveMul (a b : Float128) : Option Float128 :=
  let s := signOf a ^^ signOf b
  if isNaN a then some (quiet a)
  else if isNaN b then some (quiet b)
  else if isInf a || isInf b then
    if isZero a || isZero b then some defaultQNaN else some (signedInf s)
  else if isZero a || isZero b then some (signedZero s)
  else none

/-- `ResolveDiv` of R155. -/
def resolveDiv (a b : Float128) : Option Float128 :=
  let s := signOf a ^^ signOf b
  if isNaN a then some (quiet a)
  else if isNaN b then some (quiet b)
  else if isInf a then
    if isInf b then some defaultQNaN else some (signedInf s)
  else if isInf b then some (signedZero s)
  else if isZero b then
    if isZero a then some defaultQNaN else some (signedInf s)
  else if isZero a then some (signedZero s)
  else none

/-- `ResolveFma` of R156: the product's own invalid case comes before a NaN addend. -/
def resolveFma (a b c : Float128) (isSub : Bool) : Option Float128 :=
  let sp := signOf a ^^ signOf b
  let c' := effective isSub c
  let pinf := isInf a || isInf b
  let pzero := isZero a || isZero b
  if isNaN a then some (quiet a)
  else if isNaN b then some (quiet b)
  else if pinf && pzero then some defaultQNaN
  else if isNaN c then some (quiet c)
  else if pinf then
    if isInf c' && (signOf c' != sp) then some defaultQNaN else some (signedInf sp)
  else if isInf c' then some c'
  else if pzero && isZero c' then
    if sp = signOf c' then some (signedZero sp) else some (signedZero false)
  else if pzero then some c'
  else none

end Sys2Proof.Machine
end

