-- ==== Sys2Proof/Machine/AddSub.lean ====
section
/-!
DEFINITION. The pipeline fp128_adder_subtractor (spec/44_add_sub.md R170 to R176) and the meanings of ADDQ and SUBQ.
-/

namespace Sys2Proof.Machine

/-- `(exp_eff, sig)` of `x` is below that of `y` in lexicographic order (R88, R171 step 1). -/
def magnitudeBelow (x y : Decomposed) : Bool :=
  decide (x.exp < y.exp) || (decide (x.exp = y.exp) && decide (x.sig < y.sig))

/-- Steps 2 to 5 of `AddFinite` (R171), the operand of larger magnitude leading. -/
def addOrdered (big small : Decomposed) : OperationResult :=
  let la := laneOf big.sig
  let lb := align128 (laneOf small.sig) (big.exp - small.exp).toNat
  let r := if big.sign = small.sign then (addc la lb false).1 else (subb la lb false).1
  if r = 0#128 then
    if big.sign = small.sign then .special (signedZero big.sign) else .special (signedZero false)
  else .finite big.sign big.exp (frameOfLane r) false

/-- `AddFinite` of R171 up to its rounding: order by magnitude (on a full tie `a` leads), then add. -/
def addFinite (a b' : Float128) : OperationResult :=
  let da := decompose a
  let db := decompose b'
  if magnitudeBelow da db then addOrdered db da else addOrdered da db

/-- `AddSub` of R170 before rounding; the policy plays no part in it. -/
def addSubResult (a b : Float128) (isSub : Bool) : OperationResult :=
  match resolveAdd a b isSub with
  | some v => .special v
  | none => addFinite a (effective isSub b)

/-- `AddSub(mode, a, b, is_sub)` of R170. -/
def addSub (mode : Rounding) (a b : Float128) (isSub : Bool) : Float128 :=
  deliver mode (addSubResult a b isSub)

/-- ADDQ.RNE (R173): `result_o = AddSub(RNE, a, b, 0)`. -/
def execAddqRne (s : State) : Host.Outcome State Fault Refusal :=
  .next (s.respond (addSub .rne s.a_i s.b_i false))

/-- ADDQ.RO (R174): `result_o = AddSub(RO, a, b, 0)`. -/
def execAddqRo (s : State) : Host.Outcome State Fault Refusal :=
  .next (s.respond (addSub .ro s.a_i s.b_i false))

/-- SUBQ.RNE (R175): `result_o = AddSub(RNE, a, b, 1)`. -/
def execSubqRne (s : State) : Host.Outcome State Fault Refusal :=
  .next (s.respond (addSub .rne s.a_i s.b_i true))

/-- SUBQ.RO (R176): `result_o = AddSub(RO, a, b, 1)`. -/
def execSubqRo (s : State) : Host.Outcome State Fault Refusal :=
  .next (s.respond (addSub .ro s.a_i s.b_i true))

end Sys2Proof.Machine
end

