-- ==== Sys2Proof/Machine/Divide.lean ====
section
/-!
DEFINITION. The pipeline fp128_divider (spec/46_divide.md R200 to R203) and the meanings of DIVQ.
-/

namespace Sys2Proof.Machine

/-- Step 4 of R201: a nonzero remainder becomes a forced odd bit. -/
def forceOdd (q rm : U128) : U128 :=
  if rm = 0#128 then q else q ||| 1#128

/-- `DivFinite` of R201 up to its rounding. -/
def divFinite (a b : Float128) : OperationResult :=
  let da := decompose a
  let db := decompose b
  let na := clz da.sig
  let nb := clz db.sig
  let n := frameOf (da.sig <<< na)
  let d := factorOf (db.sig <<< nb)
  let p := div256by128 n d
  let e := (da.exp - (na : Int)) - (db.exp - (nb : Int)) + 16382
  .finite (da.sign ^^ db.sign) e (frameOfLane (forceOdd p.1 p.2)) false

/-- `Div` of R200 before rounding. -/
def divResult (a b : Float128) : OperationResult :=
  match resolveDiv a b with
  | some v => .special v
  | none => divFinite a b

/-- `Div(mode, a, b)` of R200. -/
def div (mode : Rounding) (a b : Float128) : Float128 :=
  deliver mode (divResult a b)

/-- DIVQ.RNE (R202): `result_o = Div(RNE, a, b)`. -/
def execDivqRne (s : State) : Host.Outcome State Fault Refusal :=
  .next (s.respond (div .rne s.a_i s.b_i))

/-- DIVQ.RO (R203): `result_o = Div(RO, a, b)`. -/
def execDivqRo (s : State) : Host.Outcome State Fault Refusal :=
  .next (s.respond (div .ro s.a_i s.b_i))

end Sys2Proof.Machine
end

