-- ==== Sys2Proof/Machine/Multiply.lean ====
section
/-!
DEFINITION. The pipeline fp128_multiplier (spec/45_multiply.md R190 to R192) and the meanings of MULQ.
-/

namespace Sys2Proof.Machine

/-- The exact product frame of two significands, `Mul128(ma << 15, mb << 15)` (R190, R211 step 1). -/
def productFrame (ma mb : Sig) : U256 :=
  mul128 (factorOf ma) (factorOf mb)

/-- The biased exponent of the product frame, `ea + eb - 16383` (R190, conflict C2). -/
def productExp (ea eb : Int) : Int :=
  ea + eb - Config.bias

/-- `MulFinite` of R190 up to its rounding. -/
def mulFinite (a b : Float128) : OperationResult :=
  let da := decompose a
  let db := decompose b
  .finite (da.sign ^^ db.sign) (productExp da.exp db.exp) (productFrame da.sig db.sig) false

/-- `Mul` of R190 before rounding. -/
def mulResult (a b : Float128) : OperationResult :=
  match resolveMul a b with
  | some v => .special v
  | none => mulFinite a b

/-- `Mul(mode, a, b)` of R190. -/
def mul (mode : Rounding) (a b : Float128) : Float128 :=
  deliver mode (mulResult a b)

/-- MULQ.RNE (R191): `result_o = Mul(RNE, a, b)`. -/
def execMulqRne (s : State) : Host.Outcome State Fault Refusal :=
  .next (s.respond (mul .rne s.a_i s.b_i))

/-- MULQ.RO (R192): `result_o = Mul(RO, a, b)`. -/
def execMulqRo (s : State) : Host.Outcome State Fault Refusal :=
  .next (s.respond (mul .ro s.a_i s.b_i))

end Sys2Proof.Machine
end

