-- ==== Sys2Proof/Machine/Fma.lean ====
section
/-!
DEFINITION. The pipeline fp128_fma (spec/47_fma.md R210 to R216) and the meanings of FMAQ and FMSQ.
-/

namespace Sys2Proof.Machine

/-- Steps 6 to 9 of `FmaFinite` (R211) on the two aligned frames: the larger leads, on a tie the product; then add or
subtract; exact cancellation is +0. -/
def fmaCombine (sp sc : Bool) (er : Int) (p c : U256) : OperationResult :=
  let big := if c ≤ p then p else c
  let small := if c ≤ p then c else p
  let s := if c ≤ p then sp else sc
  let r := if sp = sc then (add256 big small).1 else (sub256 big small).1
  if r = 0#256 then .special (signedZero false) else .finite s er r false

/-- Step 5 of `FmaFinite` (R211): align to the larger exponent, jamming what is lost. -/
def fmaAlign (sp sc : Bool) (ep ec : Int) (p c : U256) : OperationResult :=
  if ec ≤ ep then fmaCombine sp sc ep p (align256 c (ep - ec).toNat)
  else fmaCombine sp sc ec (align256 p (ec - ep).toNat) c

/-- `FmaFinite` of R211 up to its rounding. -/
def fmaFinite (a b c' : Float128) : OperationResult :=
  let da := decompose a
  let db := decompose b
  let dc := decompose c'
  let sp := da.sign ^^ db.sign
  let p := productFrame da.sig db.sig
  let ep := productExp da.exp db.exp
  if dc.cls = .zero then .finite sp ep p false
  else if p.getLsbD 255 then fmaAlign sp dc.sign (ep + 1) dc.exp (p >>> 1) (frameOf dc.sig)
  else fmaAlign sp dc.sign ep dc.exp p (frameOf dc.sig)

/-- `Fma` of R210 before rounding. -/
def fmaResult (a b c : Float128) (isSub : Bool) : OperationResult :=
  match resolveFma a b c isSub with
  | some v => .special v
  | none => fmaFinite a b (effective isSub c)

/-- `Fma(mode, a, b, c, is_sub)` of R210. -/
def fma (mode : Rounding) (a b c : Float128) (isSub : Bool) : Float128 :=
  deliver mode (fmaResult a b c isSub)

/-- FMAQ.RNE (R213): `result_o = Fma(RNE, a, b, c, 0)`. -/
def execFmaqRne (s : State) : Host.Outcome State Fault Refusal :=
  .next (s.respond (fma .rne s.a_i s.b_i s.c_i false))

/-- FMAQ.RO (R214): `result_o = Fma(RO, a, b, c, 0)`. -/
def execFmaqRo (s : State) : Host.Outcome State Fault Refusal :=
  .next (s.respond (fma .ro s.a_i s.b_i s.c_i false))

/-- FMSQ.RNE (R215): `result_o = Fma(RNE, a, b, c, 1)`. -/
def execFmsqRne (s : State) : Host.Outcome State Fault Refusal :=
  .next (s.respond (fma .rne s.a_i s.b_i s.c_i true))

/-- FMSQ.RO (R216): `result_o = Fma(RO, a, b, c, 1)`. -/
def execFmsqRo (s : State) : Host.Outcome State Fault Refusal :=
  .next (s.respond (fma .ro s.a_i s.b_i s.c_i true))

end Sys2Proof.Machine
end

