-- ==== Sys2Proof/Machine/Dispatch.lean ====
section
/-!
DEFINITION. One arm per constructor of Instr, each one direct call of its meaning (spec/30_encoding.md R60).
-/

namespace Sys2Proof.Machine

def exec (i : Instr) (s : State) : Host.Outcome State Fault Refusal :=
  match i with
  | .addqRne => Sys2Proof.Machine.execAddqRne s
  | .subqRne => Sys2Proof.Machine.execSubqRne s
  | .mulqRne => Sys2Proof.Machine.execMulqRne s
  | .divqRne => Sys2Proof.Machine.execDivqRne s
  | .fmaqRne => Sys2Proof.Machine.execFmaqRne s
  | .fmsqRne => Sys2Proof.Machine.execFmsqRne s
  | .addqRo => Sys2Proof.Machine.execAddqRo s
  | .subqRo => Sys2Proof.Machine.execSubqRo s
  | .mulqRo => Sys2Proof.Machine.execMulqRo s
  | .divqRo => Sys2Proof.Machine.execDivqRo s
  | .fmaqRo => Sys2Proof.Machine.execFmaqRo s
  | .fmsqRo => Sys2Proof.Machine.execFmsqRo s

end Sys2Proof.Machine
end

