-- ==== Sys2Proof/Machine/Step.lean ====
section
/-!
DEFINITION. One step answers one request: the command word on `op_i` is decoded and its meaning drives `result_o`
(spec/10_state.md R26, spec/30_encoding.md R60). There is no fetch and no program counter (R21, R49).
-/

namespace Sys2Proof.Machine

/-- One request. A reserved command is refused by name (R63, U1). The second refusal cannot be reached from a 4-bit port;
`decode` never answers it. -/
def step (s : State) : Host.Outcome State Fault Refusal :=
  match decode s.op_i with
  | .instr i => exec i s
  | .reserved op => .refused (.reservedCommand op)
  | .notACommand _ => .refused (.reservedCommand s.op_i)

/-- Place the command word `w` where the next step reads it: on the port `op_i`. The operand ports keep what they carry
(log entry 5). -/
def State.withFetchWord (s : State) (nbits w : Nat) : State :=
  { s with op_i := BitVec.ofNat 4 (w % 2 ^ nbits) }

end Sys2Proof.Machine
end

