-- ==== Sys2Proof/Machine/Flags.lean ====
section
/-!
DEFINITION. Flags: the block has none. No IEEE-754 status flag is produced, stored or readable (spec/10_state.md R22), so
no instruction computes one. What follows names, on the operands alone, the conditions of spec/60_exceptions.md R231 that
are visible in a result as a NaN or as an infinity of a division by zero; no meaning reads them, statements do.
-/

namespace Sys2Proof.Machine

/-- An operand the function reads is a NaN (R231, first row). -/
def nanOperand (f : Fn) (a b c : Float128) : Bool :=
  isNaN a || isNaN b || (f.fused && isNaN c)

/-- An infinity against an infinity of the other effective sign (R153). -/
def opposedInfinities (a b' : Float128) : Bool :=
  isInf a && isInf b' && (signOf a != signOf b')

/-- The product Inf x 0 (R154, R156). -/
def invalidProduct (a b : Float128) : Bool :=
  (isInf a || isInf b) && (isZero a || isZero b)

/-- An infinite product against an infinite effective addend of the other sign (R156). -/
def invalidSum (a b c' : Float128) : Bool :=
  (isInf a || isInf b) && isInf c' && (signOf c' != (signOf a ^^ signOf b))

/-- The invalid operations of R231's second row, for operands that are no NaN. -/
def invalidOperation (f : Fn) (a b c : Float128) : Bool :=
  match f with
  | .add => opposedInfinities a b
  | .sub => opposedInfinities a (negate b)
  | .mul => invalidProduct a b
  | .div => (isInf a && isInf b) || (isZero a && isZero b)
  | .fma => invalidProduct a b || invalidSum a b c
  | .fms => invalidProduct a b || invalidSum a b (negate c)

/-- A nonzero finite dividend over a zero divisor (R231, third row). -/
def divisionByZero (f : Fn) (a b : Float128) : Bool :=
  match f with
  | .add => false
  | .sub => false
  | .mul => false
  | .div => isNonzeroFinite a && isZero b
  | .fma => false
  | .fms => false

end Sys2Proof.Machine
end

