-- ==== Sys2Proof/Machine/Wrapper.lean ====
section
/-!
DEFINITION. The optional clocked wrapper of spec/10_state.md R28 and spec/70_reset_and_hazards.md R251. The spec allows it
and puts it outside the model of the block, so it is a second machine around `step`, with a state of its own; nothing of
the block reads it (log entry 7). One tick is one clock cycle.
-/

namespace Sys2Proof.Machine

/-- What the wrapper samples in one cycle (R28). -/
structure WrapperIn where
  rst_n : Bool
  valid_i : Bool
  op_i : BitVec 4
  a_i : Float128
  b_i : Float128
  c_i : Float128
  deriving DecidableEq, Repr

/-- What the wrapper drives in one cycle (R28). -/
structure WrapperOut where
  valid_o : Bool
  result_o : Float128
  deriving DecidableEq, Repr

/-- The pipeline registers, oldest first, as many as `LATENCY`; an empty place has its valid bit 0. `cycle` counts the
cycles and only numbers the free values. -/
structure WrapperRegs where
  pipe : List (Option Float128)
  cycle : Nat
  deriving DecidableEq, Repr

/-- The wrapper with nothing in its pipeline: its state under reset (R33, R251). -/
def wrapperReset (latency : Nat) : WrapperRegs :=
  { pipe := List.replicate latency none, cycle := 0 }

/-- The result of the request sampled in cycle `n`; a free value for a reserved command (R63). -/
def wrapperAnswer (n : Nat) (i : WrapperIn) : Float128 :=
  match step (State.reset.present i.op_i i.a_i i.b_i i.c_i) with
  | .next s => s.result_o
  | .fault _ => Config.reservedResult n
  | .refused _ => Config.reservedResult n

/-- What enters the pipeline: a request that is presented while `rst_n` is not asserted (R28, R251). -/
def wrapperEntry (n : Nat) (i : WrapperIn) : Option Float128 :=
  if i.rst_n && i.valid_i then some (wrapperAnswer n i) else none

/-- The pipeline, oldest first, after the request of this cycle has entered it; reset drops all of it (R251). -/
def wrapperLine (w : WrapperRegs) (i : WrapperIn) : List (Option Float128) :=
  (if i.rst_n then w.pipe else List.replicate w.pipe.length none) ++ [wrapperEntry w.cycle i]

/-- Drive the oldest place of the pipeline; with `valid_o = 0` the result is a free value (R28, U3). -/
def wrapperDrive (n : Nat) (line : List (Option Float128)) : WrapperOut :=
  match line with
  | some v :: _ => { valid_o := true, result_o := v }
  | none :: _ => { valid_o := false, result_o := Config.idleResult n }
  | [] => { valid_o := false, result_o := Config.idleResult n }

/-- One clock cycle: one request per cycle, no back-pressure (R28). -/
def wrapperTick (w : WrapperRegs) (i : WrapperIn) : WrapperRegs × WrapperOut :=
  let line := wrapperLine w i
  ({ pipe := line.tail, cycle := w.cycle + 1 }, wrapperDrive w.cycle line)

/-- The outputs of successive cycles. -/
def wrapperRun (w : WrapperRegs) : List WrapperIn → List WrapperOut
  | [] => []
  | i :: is => (wrapperTick w i).2 :: wrapperRun (wrapperTick w i).1 is

end Sys2Proof.Machine
end

