-- ==== Sys2Proof/Safety.lean ====
section
/-!
DEFINITION. The terms the claims use: the real value of a pattern (spec/40_decompose_classify.md R85), the two rounding
policies as properties of an exact value and a result (spec/42_normalize_round.md R138), a list of requests and its
answers (spec/20_memory.md R46), and the invariant of the ports.
-/

namespace Sys2Proof.Machine

/-- A sign as a factor. -/
def signFactor (s : Bool) : ℚ :=
  if s then -1 else 1

/-- The value of a finite pattern, `(-1)^sign * sig * 2^(exp_eff - 16495)` (R85). -/
def value (x : Float128) : ℚ :=
  signFactor (signOf x) * ((sigOf x).toNat : ℚ) * (2 : ℚ) ^ (expOf x - 16495)

/-- The magnitude a frame stands for, `M * 2^(e - 16383 - 254)` (R109, R130). -/
def frameValue (e : Int) (m : U256) : ℚ :=
  (m.toNat : ℚ) * (2 : ℚ) ^ (e - 16637)

/-- `MAX_FIN`, `(2 - 2^-112) * 2^16383` (R59). -/
def maxFinite : ℚ :=
  (2 ^ 113 - 1) * (2 : ℚ) ^ (16271 : Int)

/-- The least magnitude that rounds to nearest up to `2^16384`: half a unit above `MAX_FIN` (R137, R173). -/
def overflowLimit : ℚ :=
  (2 ^ 114 - 1) * (2 : ℚ) ^ (16270 : Int)

/-- `r` is the exact value `v`, not 0, rounded to nearest, ties to even, with gradual underflow and overflow to the signed
infinity (R138, first item). -/
def RoundsToNearestEven (v : ℚ) (r : Float128) : Prop :=
  (overflowLimit ≤ |v| → r = signedInf (decide (v < 0))) ∧
  (|v| < overflowLimit →
    isFinite r = true ∧ signOf r = decide (v < 0) ∧
    ∀ y : Float128, isFinite y = true →
      |value r - v| ≤ |value y - v| ∧
      (|value y - v| = |value r - v| → value y ≠ value r → r.getLsbD 0 = false))

/-- `r` is the exact value `v`, not 0, rounded to odd: `v` itself where it is a binary128 value, else the neighbour whose
last fraction bit is 1, and `SignedMaxFin` beyond `MAX_FIN` (R138, second item). -/
def RoundsToOdd (v : ℚ) (r : Float128) : Prop :=
  isFinite r = true ∧ signOf r = decide (v < 0) ∧
  (maxFinite < |v| → r = signedMaxFin (decide (v < 0))) ∧
  ((∃ y : Float128, isFinite y = true ∧ value y = v) → value r = v) ∧
  ((∀ y : Float128, isFinite y = true → value y ≠ v) →
    r.getLsbD 0 = true ∧
    ∀ y : Float128, isFinite y = true →
      ¬ (value r < value y ∧ value y < v) ∧ ¬ (v < value y ∧ value y < value r))

/-- Correct rounding under a policy. -/
def Rounds (mode : Rounding) (v : ℚ) (r : Float128) : Prop :=
  match mode with
  | .rne => RoundsToNearestEven v r
  | .ro => RoundsToOdd v r

/-- The exact mathematical result of a function on finite operands. -/
def exactResult (f : Fn) (a b c : Float128) : ℚ :=
  match f with
  | .add => value a + value b
  | .sub => value a - value b
  | .mul => value a * value b
  | .div => value a / value b
  | .fma => value a * value b + value c
  | .fms => value a * value b - value c

/-- One request of the requester: a command and three operand patterns (R64). -/
structure Request where
  op : BitVec 4
  a : Float128
  b : Float128
  c : Float128
  deriving DecidableEq, Repr

/-- The state with a request on the input ports. -/
def State.load (s : State) (q : Request) : State :=
  s.present q.op q.a q.b q.c

/-- The request that stands on the input ports. -/
def State.request (s : State) : Request :=
  { op := s.op_i, a := s.a_i, b := s.b_i, c := s.c_i }

/-- The answer a step gives; `none` for a refused command. -/
def outcomeResult : Host.Outcome State Fault Refusal → Option Float128
  | .next s => some s.result_o
  | .fault _ => none
  | .refused _ => none

/-- `Exec(op_i, a_i, b_i, c_i)` of R26: the answer to a request presented to the block after reset. -/
def answer (q : Request) : Option Float128 :=
  outcomeResult (step (State.reset.load q))

/-- The ports after a request has been presented and answered; a refused command leaves the result port alone. -/
def State.after (s : State) (q : Request) : State :=
  match step (s.load q) with
  | .next t => t
  | .fault _ => s.load q
  | .refused _ => s.load q

/-- The answers to a list of requests, issued in order (R64, R241). -/
def serve (s : State) : List Request → List (Option Float128)
  | [] => []
  | q :: qs => outcomeResult (step (s.load q)) :: serve (s.after q) qs

/-- The result port carries `Exec` of the input ports (R26). -/
def Settled (s : State) : Prop :=
  answer s.request = some s.result_o

/-- The invariant of the ports: the result answers the request on the input ports, and is no signaling NaN (R26, R151). -/
def Inv (s : State) : Prop :=
  Settled s ∧ isSNaN s.result_o = false

end Sys2Proof.Machine
end

