-- ==== Sys2Proof/Certificates/Slice0/Obligations.lean ====
section
/-!
DEFINITION. The statements about the block. Each docstring names the rule of spec/ it formalises; where it rests on a rule
the spec marks as its own decision or derivation, or on a choice of the model, it says so.
-/

open Sys2Proof Sys2Proof.Machine

/-! ### The command word and the step -/

/-- Decoding and encoding agree in both directions (operation map of R60, the spec's decision D3): the word of every
instruction decodes to it, no other word does, and a word that decodes to nothing is reserved. -/
def Obligations.CommandWordsDecodeToTheirInstruction : Prop :=
  (∀ (i : Instr) (op : BitVec 4), decode op = .instr i ↔ op = encode i) ∧
  (∀ op : BitVec 4, decode op = .reserved op ↔ commandWellFormed op = false) ∧
  (∀ (op : BitVec 4) (w : Nat), decode op ≠ .notACommand w)

/-- The sixteen command words, written out from the operation map of R60 and the reserved commands of R63 (decisions D3,
D4). -/
def Obligations.OperationMapWordsDecode : Prop :=
  decode 0b0000#4 = .instr .addqRne ∧ decode 0b0001#4 = .instr .subqRne ∧
  decode 0b0010#4 = .instr .mulqRne ∧ decode 0b0011#4 = .instr .divqRne ∧
  decode 0b0100#4 = .instr .fmaqRne ∧ decode 0b0101#4 = .instr .fmsqRne ∧
  decode 0b0110#4 = .reserved 0b0110#4 ∧ decode 0b0111#4 = .reserved 0b0111#4 ∧
  decode 0b1000#4 = .instr .addqRo ∧ decode 0b1001#4 = .instr .subqRo ∧
  decode 0b1010#4 = .instr .mulqRo ∧ decode 0b1011#4 = .instr .divqRo ∧
  decode 0b1100#4 = .instr .fmaqRo ∧ decode 0b1101#4 = .instr .fmsqRo ∧
  decode 0b1110#4 = .reserved 0b1110#4 ∧ decode 0b1111#4 = .reserved 0b1111#4

/-- A step runs the instruction that the command port decodes to, and nothing else; a word placed by `withFetchWord` is the
one the next step runs (R26, R49; the model's choice of a port as the place, log entry 5). -/
def Obligations.StepRunsTheDecodedInstruction : Prop :=
  (∀ (s : State) (i : Instr), decode s.op_i = .instr i → step s = exec i s) ∧
  (∀ (s : State) (i : Instr) (nbits w : Nat), decodeTableWord nbits w = some i →
    step (s.withFetchWord nbits w) = exec i (s.withFetchWord nbits w))

/-- The reserved commands, `fn` = 6 or 7, are refused by name, whatever the operands (R63, decision D4; log entry 4). -/
def Obligations.ReservedCommandsAreRefused : Prop :=
  ∀ s : State, 6 ≤ (s.op_i.extractLsb' 0 3).toNat → step s = .refused (.reservedCommand s.op_i)

/-- Every instruction answers in every state, and it changes the result port only: each input port keeps its value; a step
stops for a reserved command and for nothing else (R11, R230). -/
def Obligations.EveryInstructionAnswersAndKeepsTheInputPorts : Prop :=
  (∀ (i : Instr) (s : State), ∃ t, exec i s = .next t ∧
    t.op_i = s.op_i ∧ t.a_i = s.a_i ∧ t.b_i = s.b_i ∧ t.c_i = s.c_i) ∧
  (∀ s : State, commandWellFormed s.op_i = true → ∃ t, step s = .next t)

/-- For the eight two-operand instructions the result does not depend on `c_i`, nor on what the result port carried (R27,
decision D20). -/
def Obligations.TwoOperandResultsIgnoreTheThirdPort : Prop :=
  ∀ (i : Instr) (s : State) (c r : Float128), i.fn.fused = false →
    ∃ v, exec i s = .next (s.respond v) ∧
      exec i { s with c_i := c, result_o := r } = .next ({ s with c_i := c, result_o := r }.respond v)

/-- "any interleaving of requests … gives each request the same result" (R46): in a list of requests, issued in order from
any state, each is answered as it would be alone after reset. -/
def Obligations.RequestsDoNotDisturbOneAnother : Prop :=
  ∀ (s : State) (qs : List Request), serve s qs = qs.map answer

/-- "`Exec` is idempotent" (R43, marked derived): the step after an answered request, with the ports left alone, answers the
same and leaves the same state. -/
def Obligations.AnsweringAgainChangesNothing : Prop :=
  ∀ s t : State, step s = .next t → step t = .next t

/-- The invariant of the ports at reset: the result port carries the answer to the request that stands on the input ports.
The port values at reset are the model's choice (log entry 2). -/
def Obligations.PortsAreSettledAtReset : Prop :=
  Inv State.reset

/-- The invariant of the ports is kept by every step, from every state, whatever request the requester presents before it:
the result is `Exec` of the input ports (R26), and it is never a signaling NaN ("arithmetic must quiet any signaling NaN it
propagates", R151). -/
def Obligations.EveryStepKeepsThePortsSettled : Prop :=
  ∀ (s t : State) (q : Request), Inv s → step (s.load q) = .next t → Inv t

/-! ### The format, the decomposer and the classifier -/

/-- The classifier (R81): the six conditions, said of the 127 bits under the sign as one number; they exclude one another
and cover every pattern, and the sign plays no part. -/
def Obligations.ClassesPartitionThePatterns : Prop :=
  ∀ x : Float128,
    (cls x = .zero ↔ x.toNat % 2 ^ 127 = 0) ∧
    (cls x = .subnormal ↔ 0 < x.toNat % 2 ^ 127 ∧ x.toNat % 2 ^ 127 < 2 ^ 112) ∧
    (cls x = .normal ↔ 2 ^ 112 ≤ x.toNat % 2 ^ 127 ∧ x.toNat % 2 ^ 127 < 0x7FFF * 2 ^ 112) ∧
    (cls x = .infinity ↔ x.toNat % 2 ^ 127 = 0x7FFF * 2 ^ 112) ∧
    (cls x = .sNaN ↔ 0x7FFF * 2 ^ 112 < x.toNat % 2 ^ 127 ∧
      x.toNat % 2 ^ 127 < 0x7FFF * 2 ^ 112 + 2 ^ 111) ∧
    (cls x = .qNaN ↔ 0x7FFF * 2 ^ 112 + 2 ^ 111 ≤ x.toNat % 2 ^ 127)

/-- Packing is the inverse of field extraction (R89), and the pattern is `{s, bexp, frac}`. -/
def Obligations.PackingInvertsFieldExtraction : Prop :=
  (∀ x : Float128, pack (signOf x) (bexpOf x) (fracOf x) = x) ∧
  (∀ (s : Bool) (e : BitVec 15) (f : BitVec 112),
    (pack s e f).toNat = s.toNat * 2 ^ 127 + e.toNat * 2 ^ 112 + f.toNat ∧
    signOf (pack s e f) = s ∧ bexpOf (pack s e f) = e ∧ fracOf (pack s e f) = f)

/-- The order of finite magnitudes (R88, marked derived): by value, by `(exp_eff, sig)` in lexicographic order, and by bits
126:0 as an unsigned number, all the same; and equal magnitudes are equal bits 126:0. -/
def Obligations.MagnitudeOrderIsPatternOrder : Prop :=
  ∀ x y : Float128, isFinite x = true → isFinite y = true →
    (|value x| < |value y| ↔
      (expOf x < expOf y ∨ (expOf x = expOf y ∧ (sigOf x).toNat < (sigOf y).toNat))) ∧
    (|value x| < |value y| ↔ x.toNat % 2 ^ 127 < y.toNat % 2 ^ 127) ∧
    (|value x| = |value y| ↔ x.toNat % 2 ^ 127 = y.toNat % 2 ^ 127)

/-- "every finite value is an integer multiple of" 2^-16494, and a nonzero one is at least that large (R85, marked
derived). -/
def Obligations.FiniteValuesAreMultiplesOfTheLeastSubnormal : Prop :=
  ∀ x : Float128, isFinite x = true →
    (∃ k : Int, value x = k * (2 : ℚ) ^ (-16494 : Int)) ∧
    (isZero x = false → (2 : ℚ) ^ (-16494 : Int) ≤ |value x|)

/-! ### The integer datapath units -/

/-- The carry and borrow chains of R101 over two limbs: sum and carry-out, difference and borrow-out. -/
def Obligations.WideAddAndSubtractAreExact : Prop :=
  ∀ v w : U256,
    (add256 v w).1.toNat + (add256 v w).2.toNat * 2 ^ 256 = v.toNat + w.toNat ∧
    (sub256 v w).1.toNat + w.toNat = v.toNat + (sub256 v w).2.toNat * 2 ^ 256 ∧
    clz256 v = clz v

/-- Sticky bits accumulate over successive shifts (R104, marked derived). -/
def Obligations.StickyShiftsAccumulate : Prop :=
  ∀ (n : Nat) (v : BitVec n) (d1 d2 : Nat),
    srs v (d1 + d2) = ((srs (srs v d1).1 d2).1, (srs v d1).2 || (srs (srs v d1).1 d2).2)

/-- The jammed value is the shifted value rounded to odd at bit 0, and it stands on the same side of every even number as
the exact quotient (R105, marked derived). -/
def Obligations.JamRoundsToOddAtBitZero : Prop :=
  ∀ (n : Nat) (v : BitVec n) (d : Nat),
    (v.toNat % 2 ^ d = 0 → (jam v d).toNat * 2 ^ d = v.toNat) ∧
    (v.toNat % 2 ^ d ≠ 0 → (jam v d).toNat % 2 = 1 ∧
      ((jam v d).toNat = v.toNat / 2 ^ d ∨ (jam v d).toNat = v.toNat / 2 ^ d + 1)) ∧
    (∀ k : Nat, k % 2 = 0 → ((jam v d).toNat < k ↔ v.toNat < k * 2 ^ d))

/-- The multiplier: the exact product, and commutative, as R108 states; and the limb-wise form, which R108 marks derived and
leaves to the model (log entry 8), gives the same product. -/
def Obligations.MultiplierIsExact : Prop :=
  ∀ x y : U128,
    (mul128 x y).toNat = x.toNat * y.toNat ∧ mul128 x y = mul128 y x ∧ mul128Limbs x y = mul128 x y

/-- The general digit step within its precondition returns floor quotient and remainder: the two corrections the loop may
take are enough (R111, whose bound the spec marks as general knowledge; log entry 9). -/
def Obligations.GeneralDigitStepDivides : Prop :=
  ∀ (u : BitVec 192) (d : U128), 2 ^ 127 ≤ d.toNat → u.toNat / 2 ^ 64 < d.toNat →
    (divDigitGeneral u d).1.toNat = u.toNat / d.toNat ∧
    (divDigitGeneral u d).2.toNat = u.toNat % d.toNat

/-- "the fast single-digit path and the general multi-digit path must produce identical quotients" (R114, marked derived),
and identical remainders. -/
def Obligations.FastDigitStepAgreesWithTheGeneralOne : Prop :=
  ∀ (u : BitVec 192) (d : U128), 2 ^ 127 ≤ d.toNat → u.toNat / 2 ^ 64 < d.toNat →
    d.toNat % 2 ^ 64 = 0 → divDigitFast u d = divDigitGeneral u d

/-- The divider's contract (R110): within the precondition, `Q` is the floor quotient and `Rm` the remainder. -/
def Obligations.DividerMeetsItsContract : Prop :=
  ∀ (n : U256) (d : U128), d.getLsbD 127 = true → n.toNat / 2 ^ 128 < d.toNat →
    (div256by128 n d).1.toNat = n.toNat / d.toNat ∧
    (div256by128 n d).2.toNat + (div256by128 n d).1.toNat * d.toNat = n.toNat ∧
    (div256by128 n d).2.toNat < d.toNat

/-! ### Normalizer, rounder, packer -/

/-- After the normalizer (R131 to R133) the carry bit is 0, the exponent is at least 1, and the frame has its leading 1 at
bit 254 or exponent 1; a nonzero frame is not lost (some bit or the sticky is left); and where no sticky bit is raised the
magnitude is unchanged. -/
def Obligations.NormalizedFramesAreInForm : Prop :=
  ∀ f : Frame,
    (normalize f).m.toNat < 2 ^ 255 ∧ 1 ≤ (normalize f).exp ∧
    (f.m ≠ 0#256 → 2 ^ 254 ≤ (normalize f).m.toNat ∨ (normalize f).exp = 1) ∧
    (f.m ≠ 0#256 → (normalize f).m ≠ 0#256 ∨ (normalize f).sticky = true) ∧
    ((normalize f).sticky = false →
      frameValue (normalize f).exp (normalize f).m = frameValue f.exp f.m)

/-- `round_to_odd` (R135): the least retained bit is set whenever a discarded bit was 1; it never carries and never changes
the exponent, and a nonzero input never rounds to zero. -/
def Obligations.RoundToOddSetsTheLastBit : Prop :=
  ∀ f : Frame, f.m.toNat < 2 ^ 255 →
    (roundToOdd f).1 = f.exp ∧
    (f.m.toNat % 2 ^ 142 = 0 → f.sticky = false → (roundToOdd f).2.toNat = f.m.toNat / 2 ^ 142) ∧
    ((f.m.toNat % 2 ^ 142 ≠ 0 ∨ f.sticky = true) →
      (roundToOdd f).2.toNat = f.m.toNat / 2 ^ 142 + (1 - f.m.toNat / 2 ^ 142 % 2)) ∧
    ((f.m ≠ 0#256 ∨ f.sticky = true) → (roundToOdd f).2 ≠ 0#113)

/-- `round_to_nearest_even` (R136): with `N` the retained integer and `D` the discarded part out of 2^142, the result is
`N + 1` above half and at half for an odd `N`, else `N`; the carry to 2^113 is taken back by one exponent step. -/
def Obligations.RoundToNearestEvenPicksTheNearest : Prop :=
  ∀ f : Frame, f.m.toNat < 2 ^ 255 →
    ∃ k : Nat, k ≤ 1 ∧ (roundToNearestEven f).1 = f.exp + k ∧
      (k = 1 → (roundToNearestEven f).2.toNat = 2 ^ 112) ∧
      (roundToNearestEven f).2.toNat * 2 ^ k =
        f.m.toNat / 2 ^ 142 +
          (if 2 ^ 141 < f.m.toNat % 2 ^ 142 ∨
              (f.m.toNat % 2 ^ 142 = 2 ^ 141 ∧ (f.sticky = true ∨ f.m.toNat / 2 ^ 142 % 2 = 1))
            then 1 else 0)

/-- The packer (R137): subnormal and zero results, exponent overflow per policy, normal results. -/
def Obligations.PackerHandlesSubnormalOverflowAndNormal : Prop :=
  ∀ (mode : Rounding) (s : Bool) (e : Int) (q : Sig),
    (q.toNat < 2 ^ 112 →
      signOf (packResult mode s e q) = s ∧ (bexpOf (packResult mode s e q)).toNat = 0 ∧
      (fracOf (packResult mode s e q)).toNat = q.toNat) ∧
    (2 ^ 112 ≤ q.toNat → 0x7FFF ≤ e →
      packResult .ro s e q = signedMaxFin s ∧ packResult .rne s e q = signedInf s) ∧
    (2 ^ 112 ≤ q.toNat → 1 ≤ e → e < 0x7FFF →
      signOf (packResult mode s e q) = s ∧ ((bexpOf (packResult mode s e q)).toNat : Int) = e ∧
      (fracOf (packResult mode s e q)).toNat + 2 ^ 112 = q.toNat)

/-- `NormRoundPack` rounds correctly (R138, marked derived): whatever frame and exponent it is given, without an earlier
sticky bit, its result is the magnitude `M * 2^(e - 16383 - 254)` with the sign `s`, rounded by the policy. -/
def Obligations.NormRoundPackRoundsCorrectly : Prop :=
  ∀ (mode : Rounding) (s : Bool) (e : Int) (m : U256), m ≠ 0#256 →
    Rounds mode (signFactor s * frameValue e m) (normRoundPack mode s e m false)

/-! ### Finite operands: each instruction completes with the correctly rounded result -/

/-- ADDQ.RNE and ADDQ.RO complete with the correctly rounded sum of finite operands, where it is not zero (R173, R174,
R178 (d), marked derived). -/
def Obligations.AddDeliversTheRoundedSum : Prop :=
  ∀ (mode : Rounding) (s : State), isFinite s.a_i = true → isFinite s.b_i = true →
    value s.a_i + value s.b_i ≠ 0 →
    ∃ r, exec (instrOf mode .add) s = .next (s.respond r) ∧ Rounds mode (value s.a_i + value s.b_i) r

/-- SUBQ.RNE and SUBQ.RO complete with the correctly rounded difference of finite operands, where it is not zero (R175,
R176, R178 (d), marked derived). -/
def Obligations.SubtractDeliversTheRoundedDifference : Prop :=
  ∀ (mode : Rounding) (s : State), isFinite s.a_i = true → isFinite s.b_i = true →
    value s.a_i - value s.b_i ≠ 0 →
    ∃ r, exec (instrOf mode .sub) s = .next (s.respond r) ∧ Rounds mode (value s.a_i - value s.b_i) r

/-- An exactly zero sum or difference of finite operands (R171 step 4, read as conflict C5 resolves it): -0 when both
effective operands are negative, which only two zeros can be, and +0 otherwise; both policies alike. -/
def Obligations.ExactZeroSumsTakeTheCancellationSign : Prop :=
  ∀ (mode : Rounding) (s : State), isFinite s.a_i = true → isFinite s.b_i = true →
    (value s.a_i + value s.b_i = 0 →
      exec (instrOf mode .add) s = .next (s.respond (signedZero (signOf s.a_i && signOf s.b_i)))) ∧
    (value s.a_i - value s.b_i = 0 →
      exec (instrOf mode .sub) s = .next (s.respond (signedZero (signOf s.a_i && !signOf s.b_i))))

/-- MULQ.RNE and MULQ.RO complete with the correctly rounded product of nonzero finite factors (R191, R192, R193, marked
derived). -/
def Obligations.MultiplyDeliversTheRoundedProduct : Prop :=
  ∀ (mode : Rounding) (s : State), isNonzeroFinite s.a_i = true → isNonzeroFinite s.b_i = true →
    ∃ r, exec (instrOf mode .mul) s = .next (s.respond r) ∧ Rounds mode (value s.a_i * value s.b_i) r

/-- DIVQ.RNE and DIVQ.RO complete with the correctly rounded quotient of nonzero finite operands (R202, R203, R204, marked
derived). -/
def Obligations.DivideDeliversTheRoundedQuotient : Prop :=
  ∀ (mode : Rounding) (s : State), isNonzeroFinite s.a_i = true → isNonzeroFinite s.b_i = true →
    ∃ r, exec (instrOf mode .div) s = .next (s.respond r) ∧ Rounds mode (value s.a_i / value s.b_i) r

/-- FMAQ.RNE and FMAQ.RO complete with a * b + c, rounded once, for finite operands, where it is not zero (R213, R214, R217
(a), marked derived). -/
def Obligations.FusedAddRoundsOnce : Prop :=
  ∀ (mode : Rounding) (s : State), isFinite s.a_i = true → isFinite s.b_i = true → isFinite s.c_i = true →
    value s.a_i * value s.b_i + value s.c_i ≠ 0 →
    ∃ r, exec (instrOf mode .fma) s = .next (s.respond r) ∧
      Rounds mode (value s.a_i * value s.b_i + value s.c_i) r

/-- FMSQ.RNE and FMSQ.RO complete with a * b - c, rounded once, for finite operands, where it is not zero (R215, R216; the
meaning of the form is the spec's decision D14). -/
def Obligations.FusedSubtractRoundsOnce : Prop :=
  ∀ (mode : Rounding) (s : State), isFinite s.a_i = true → isFinite s.b_i = true → isFinite s.c_i = true →
    value s.a_i * value s.b_i - value s.c_i ≠ 0 →
    ∃ r, exec (instrOf mode .fms) s = .next (s.respond r) ∧
      Rounds mode (value s.a_i * value s.b_i - value s.c_i) r

/-- An exactly zero fused result of finite operands: the common sign when the product and the effective addend agree in
sign, else +0 (R156 on zero products, R211 step 8); both policies alike. That FMSQ flips the addend's sign is the spec's
decision D14 (log entry 11). -/
def Obligations.ExactZeroFusedResultsTakeTheCancellationSign : Prop :=
  ∀ (mode : Rounding) (s : State), isFinite s.a_i = true → isFinite s.b_i = true → isFinite s.c_i = true →
    (value s.a_i * value s.b_i + value s.c_i = 0 →
      exec (instrOf mode .fma) s =
        .next (s.respond (signedZero ((signOf s.a_i ^^ signOf s.b_i) && signOf s.c_i)))) ∧
    (value s.a_i * value s.b_i - value s.c_i = 0 →
      exec (instrOf mode .fms) s =
        .next (s.respond (signedZero ((signOf s.a_i ^^ signOf s.b_i) && !signOf s.c_i))))

/-- A sum of two operands with exponent field 0, zeros and subnormals, is exact under both policies, and so is a sum of two
operands of exponent 1 with differing signs. R178 (c), marked derived,
claims it of every two operands of exponent 1; that is not so for two Normals of exponent field 1 and one sign whose
significands add up to an odd number of 2^113 or more, and the last clause says that such a pair exists (log entry 10). -/
def Obligations.SumsOfSubnormalsAreExact : Prop :=
  (∀ (mode : Rounding) (s : State), expOf s.a_i = 1 → expOf s.b_i = 1 →
    ((bexpOf s.a_i = 0#15 ∧ bexpOf s.b_i = 0#15) ∨ signOf s.a_i ≠ signOf s.b_i) →
    ∃ r, exec (instrOf mode .add) s = .next (s.respond r) ∧ isFinite r = true ∧
      value r = value s.a_i + value s.b_i) ∧
  (∀ mode : Rounding, ∃ (s : State) (r : Float128), expOf s.a_i = 1 ∧ expOf s.b_i = 1 ∧
    exec (instrOf mode .add) s = .next (s.respond r) ∧ value r ≠ value s.a_i + value s.b_i)

/-- Alignment by at most 14 loses no bit (R106, R178 (a)), and by 128 or more collapses to the sticky bit (R106). -/
def Obligations.AlignmentLosesNothingUpToFourteen : Prop :=
  ∀ (m : Sig) (d : Nat),
    (d ≤ 14 → (align128 (laneOf m) d).toNat * 2 ^ d = (laneOf m).toNat) ∧
    (128 ≤ d → align128 (laneOf m) d = if m = 0#113 then 0#128 else 1#128)

/-! ### Special values -/

/-- NaN priority, every instruction (R157): the first NaN operand is returned with the quiet bit set and its other
127 bits, the sign among them, kept; in the fused operations a NaN addend comes after the product's own invalid case. -/
def Obligations.FirstNaNOperandIsReturnedQuieted : Prop :=
  ∀ (i : Instr) (s : State),
    (isNaN s.a_i = true → exec i s = .next (s.respond (quiet s.a_i))) ∧
    (isNaN s.a_i = false → isNaN s.b_i = true → exec i s = .next (s.respond (quiet s.b_i))) ∧
    (i.fn.fused = true → isNaN s.a_i = false → isNaN s.b_i = false →
      invalidProduct s.a_i s.b_i = false → isNaN s.c_i = true →
      exec i s = .next (s.respond (quiet s.c_i)))

/-- Quieting (R151; its propagation is FirstNaNOperandIsReturnedQuieted): bit 111 is set and no other bit changes, a quieted
NaN is a quiet NaN, and a quiet NaN is returned unchanged. -/
def Obligations.QuietingSetsOneBit : Prop :=
  ∀ x : Float128,
    (∀ k : Nat, k < 128 → (quiet x).getLsbD k = (decide (k = 111) || x.getLsbD k)) ∧
    (isNaN x = true → cls (quiet x) = .qNaN) ∧
    (cls x = .qNaN → quiet x = x) ∧
    quiet (quiet x) = quiet x

/-- Special operands of ADDQ and SUBQ (R153): a NaN first, `a` before `b`, quieted and never negated; then infinities of the
same effective sign, of opposite effective signs, and one infinity, the second operand of a subtract negated; the resolver
answers nothing exactly when both operands are finite. -/
def Obligations.AddAndSubtractOfInfinities : Prop :=
  ∀ (mode : Rounding) (isSub : Bool) (s : State),
    let i := if isSub then instrOf mode .sub else instrOf mode .add
    let b' := if isSub then negate s.b_i else s.b_i
    (isNaN s.a_i = true → exec i s = .next (s.respond (quiet s.a_i))) ∧
    (isNaN s.a_i = false → isNaN s.b_i = true → exec i s = .next (s.respond (quiet s.b_i))) ∧
    (isInf s.a_i = true → isInf s.b_i = true → signOf s.a_i = signOf b' →
      exec i s = .next (s.respond s.a_i)) ∧
    (isInf s.a_i = true → isInf s.b_i = true → signOf s.a_i ≠ signOf b' →
      exec i s = .next (s.respond defaultQNaN)) ∧
    (isInf s.a_i = true → isFinite s.b_i = true → exec i s = .next (s.respond s.a_i)) ∧
    (isFinite s.a_i = true → isInf s.b_i = true → exec i s = .next (s.respond b')) ∧
    (resolveAdd s.a_i s.b_i isSub = none ↔ isFinite s.a_i = true ∧ isFinite s.b_i = true)

/-- Special operands of MULQ (R154): a NaN first, `a` before `b`, quieted; then an infinity times a zero, an infinity, a
zero, the sign of every result that is no NaN the exclusive OR of the operand signs; the resolver answers nothing exactly
when both operands are finite and not zero. -/
def Obligations.MultiplyOfInfinitiesAndZeros : Prop :=
  ∀ (mode : Rounding) (s : State),
    let i := instrOf mode .mul
    let sx := signOf s.a_i ^^ signOf s.b_i
    (isNaN s.a_i = true → exec i s = .next (s.respond (quiet s.a_i))) ∧
    (isNaN s.a_i = false → isNaN s.b_i = true → exec i s = .next (s.respond (quiet s.b_i))) ∧
    (isInf s.a_i = true → isZero s.b_i = true → exec i s = .next (s.respond defaultQNaN)) ∧
    (isZero s.a_i = true → isInf s.b_i = true → exec i s = .next (s.respond defaultQNaN)) ∧
    (isInf s.a_i = true → isNaN s.b_i = false → isZero s.b_i = false →
      exec i s = .next (s.respond (signedInf sx))) ∧
    (isNaN s.a_i = false → isZero s.a_i = false → isInf s.b_i = true →
      exec i s = .next (s.respond (signedInf sx))) ∧
    (isZero s.a_i = true → isFinite s.b_i = true → exec i s = .next (s.respond (signedZero sx))) ∧
    (isFinite s.a_i = true → isZero s.b_i = true → exec i s = .next (s.respond (signedZero sx))) ∧
    (∀ t, exec i s = .next t → isNaN t.result_o = false → signOf t.result_o = sx) ∧
    (resolveMul s.a_i s.b_i = none ↔ isNonzeroFinite s.a_i = true ∧ isNonzeroFinite s.b_i = true)

/-- Infinities and zeros in DIVQ (R155), operands that are no NaN: Inf / Inf and 0 / 0 are invalid, Inf / finite and
nonzero finite / 0 are signed infinities in both policies, finite / Inf and 0 / nonzero finite are signed zeros (the last
is the spec's decision D12). -/
def Obligations.DivideOfInfinitiesAndZeros : Prop :=
  ∀ (mode : Rounding) (s : State), isNaN s.a_i = false → isNaN s.b_i = false →
    let i := instrOf mode .div
    let sx := signOf s.a_i ^^ signOf s.b_i
    (isInf s.a_i = true → isInf s.b_i = true → exec i s = .next (s.respond defaultQNaN)) ∧
    (isInf s.a_i = true → isFinite s.b_i = true → exec i s = .next (s.respond (signedInf sx))) ∧
    (isFinite s.a_i = true → isInf s.b_i = true → exec i s = .next (s.respond (signedZero sx))) ∧
    (isZero s.a_i = true → isZero s.b_i = true → exec i s = .next (s.respond defaultQNaN)) ∧
    (isNonzeroFinite s.a_i = true → isZero s.b_i = true → exec i s = .next (s.respond (signedInf sx))) ∧
    (isZero s.a_i = true → isNonzeroFinite s.b_i = true → exec i s = .next (s.respond (signedZero sx)))

/-- Infinities and zero products in FMAQ and FMSQ (R156, its order the spec's decision D15, FMSQ its decision D14): the
product's invalid case before everything else, whatever the addend; then, for an addend that is no NaN, an infinite
product, an infinite effective addend, a zero product. -/
def Obligations.FusedOperationsOfInfinitiesAndZeros : Prop :=
  ∀ (mode : Rounding) (isSub : Bool) (s : State), isNaN s.a_i = false → isNaN s.b_i = false →
    let i := if isSub then instrOf mode .fms else instrOf mode .fma
    let c' := if isSub then negate s.c_i else s.c_i
    let sp := signOf s.a_i ^^ signOf s.b_i
    (invalidProduct s.a_i s.b_i = true → exec i s = .next (s.respond defaultQNaN)) ∧
    (invalidProduct s.a_i s.b_i = false → isNaN s.c_i = false →
      ((isInf s.a_i = true ∨ isInf s.b_i = true) → isInf s.c_i = true → signOf c' ≠ sp →
        exec i s = .next (s.respond defaultQNaN)) ∧
      ((isInf s.a_i = true ∨ isInf s.b_i = true) → (isInf s.c_i = false ∨ signOf c' = sp) →
        exec i s = .next (s.respond (signedInf sp))) ∧
      (isInf s.a_i = false → isInf s.b_i = false → isInf s.c_i = true →
        exec i s = .next (s.respond c')) ∧
      ((isZero s.a_i = true ∨ isZero s.b_i = true) → isInf s.a_i = false → isInf s.b_i = false →
        isNonzeroFinite s.c_i = true → exec i s = .next (s.respond c')))

/-- When a result is a NaN (R231): exactly when an operand of the function is a NaN or the operation is invalid, for every
instruction; finite operands that are no invalid operation never give one. That FMSQ compares the sign of the flipped
addend is the spec's decision D14 (log entry 11). -/
def Obligations.ResultIsNaNExactlyWhenInvalid : Prop :=
  ∀ (i : Instr) (s t : State), exec i s = .next t →
    (isNaN t.result_o = true ↔
      nanOperand i.fn s.a_i s.b_i s.c_i = true ∨ invalidOperation i.fn s.a_i s.b_i s.c_i = true)

/-- "never emit Infinity" (R137): a round-to-odd instruction on finite operands, a division by zero apart, completes with a
finite result. -/
def Obligations.RoundToOddNeverOverflowsToInfinity : Prop :=
  ∀ (i : Instr) (s : State), i.mode = .ro → isFinite s.a_i = true → isFinite s.b_i = true →
    (i.fn.fused = true → isFinite s.c_i = true) → (i.fn = .div → isZero s.b_i = false) →
    ∃ r, exec i s = .next (s.respond r) ∧ isFinite r = true

/-- "no special result depends on the rounding policy" (R150): with an operand that is not finite, or a zero factor,
dividend or divisor, the two variants of a function answer alike. -/
def Obligations.SpecialResultsIgnoreThePolicy : Prop :=
  ∀ (f : Fn) (s : State),
    (isFinite s.a_i = false ∨ isFinite s.b_i = false ∨ (f.fused = true ∧ isFinite s.c_i = false) ∨
      ((f = .mul ∨ f = .div ∨ f.fused = true) ∧ (isZero s.a_i = true ∨ isZero s.b_i = true))) →
    ∃ r, exec (instrOf .rne f) s = .next (s.respond r) ∧ exec (instrOf .ro f) s = .next (s.respond r)

/-! ### Relations between instructions -/

/-- Subtract is add of the negation (R172): for a second operand that is no NaN, SUBQ answers what ADDQ answers with the
sign bit of `b` flipped; for a NaN, what ADDQ answers. -/
def Obligations.SubtractIsAddOfTheNegation : Prop :=
  ∀ (mode : Rounding) (s : State),
    (isNaN s.b_i = false → ∃ r, exec (instrOf mode .sub) s = .next (s.respond r) ∧
      exec (instrOf mode .add) { s with b_i := negate s.b_i } =
        .next ({ s with b_i := negate s.b_i }.respond r)) ∧
    (isNaN s.b_i = true → exec (instrOf mode .sub) s = exec (instrOf mode .add) s)

/-- Fused multiply-subtract is fused multiply-add of the negated addend (R212, the spec's decision D14). -/
def Obligations.FusedSubtractIsFusedAddOfTheNegation : Prop :=
  ∀ (mode : Rounding) (s : State),
    (isNaN s.c_i = false → ∃ r, exec (instrOf mode .fms) s = .next (s.respond r) ∧
      exec (instrOf mode .fma) { s with c_i := negate s.c_i } =
        .next ({ s with c_i := negate s.c_i }.respond r)) ∧
    (isNaN s.c_i = true → exec (instrOf mode .fms) s = exec (instrOf mode .fma) s)

/-- Add is commutative on operands that are no NaN, and subtract changes only the sign when its finite operands are
exchanged, but for equal operands, where both give +0 (R177). -/
def Obligations.AddCommutesAndSubtractAntiCommutes : Prop :=
  ∀ (mode : Rounding) (s : State), isNaN s.a_i = false → isNaN s.b_i = false →
    (∃ r, exec (instrOf mode .add) s = .next (s.respond r) ∧
      exec (instrOf mode .add) { s with a_i := s.b_i, b_i := s.a_i } =
        .next ({ s with a_i := s.b_i, b_i := s.a_i }.respond r)) ∧
    (isFinite s.a_i = true → isFinite s.b_i = true → s.a_i ≠ s.b_i →
      ∃ r, exec (instrOf mode .sub) s = .next (s.respond r) ∧
        exec (instrOf mode .sub) { s with a_i := s.b_i, b_i := s.a_i } =
          .next ({ s with a_i := s.b_i, b_i := s.a_i }.respond (negate r))) ∧
    (isFinite s.a_i = true → s.a_i = s.b_i →
      exec (instrOf mode .sub) s = .next (s.respond (signedZero false)))

/-- Multiply is commutative on operands that are no NaN (R193), and the fused operations are symmetric in their factors
(R217 (b)), FMSQ with the meaning of the spec's decision D14 (log entry 11). -/
def Obligations.MultiplyAndFusedFactorsCommute : Prop :=
  ∀ (mode : Rounding) (f : Fn) (s : State), (f = .mul ∨ f = .fma ∨ f = .fms) →
    isNaN s.a_i = false → isNaN s.b_i = false →
    ∃ r, exec (instrOf mode f) s = .next (s.respond r) ∧
      exec (instrOf mode f) { s with a_i := s.b_i, b_i := s.a_i } =
        .next ({ s with a_i := s.b_i, b_i := s.a_i }.respond r)

/-- With a zero addend of either sign and a nonzero finite product, FMAQ answers what MULQ answers (R213, R217 (d), marked
derived and said of `is_sub` = 0 only), and so does FMSQ, whose meaning is the spec's decision D14 (log entry 11). -/
def Obligations.FusedWithAZeroAddendIsMultiply : Prop :=
  ∀ (mode : Rounding) (s : State), isNonzeroFinite s.a_i = true → isNonzeroFinite s.b_i = true →
    isZero s.c_i = true →
    exec (instrOf mode .fma) s = exec (instrOf mode .mul) s ∧
    exec (instrOf mode .fms) s = exec (instrOf mode .mul) s

/-- Exact cases that both policies share (corner cases of R173, R175, R191, R202): x + 0 = x for nonzero x, x * 1 = x,
x / 1 = x, x / x = 1 for nonzero x, for finite x, subnormals included. -/
def Obligations.ExactIdentitiesHoldUnderBothPolicies : Prop :=
  ∀ (mode : Rounding) (s : State), isFinite s.a_i = true →
    (isZero s.a_i = false → isZero s.b_i = true →
      exec (instrOf mode .add) s = .next (s.respond s.a_i)) ∧
    (s.b_i = pack false 0x3FFF#15 0#112 → exec (instrOf mode .mul) s = .next (s.respond s.a_i)) ∧
    (s.b_i = pack false 0x3FFF#15 0#112 → exec (instrOf mode .div) s = .next (s.respond s.a_i)) ∧
    (isZero s.a_i = false → s.b_i = s.a_i →
      exec (instrOf mode .div) s = .next (s.respond (pack false 0x3FFF#15 0#112)))

/-! ### The optional clocked wrapper -/

/-- The wrapper's timing over its runs from reset (R28, R251): for every latency, `valid_o` is 1 in cycle `t + LATENCY`
exactly when a request was presented in cycle `t` and `rst_n` has stayed released from `t` to `t + LATENCY`, and `result_o`
is then `wrapperAnswer` of that request; in the first `LATENCY` cycles `valid_o` is 0. The wrapper is outside the model of
the block. That a cycle of reset empties the pipeline, and that a reserved command is answered like any other, with a free
value, are the model's choices (log entry 7). -/
def Obligations.WrapperAnswersAfterItsLatency : Prop :=
  ∀ (latency : Nat) (ins : List WrapperIn),
    (wrapperRun (wrapperReset latency) ins).length = ins.length ∧
    (∀ (t : Nat) (o : WrapperOut), t < latency →
      (wrapperRun (wrapperReset latency) ins)[t]? = some o → o.valid_o = false) ∧
    (∀ (t : Nat) (i : WrapperIn) (o : WrapperOut), ins[t]? = some i →
      (wrapperRun (wrapperReset latency) ins)[t + latency]? = some o →
      (o.valid_o = true ↔
        i.valid_i = true ∧ ∀ k ≤ latency, ∀ j, ins[t + k]? = some j → j.rst_n = true) ∧
      (o.valid_o = true → o.result_o = wrapperAnswer t i))
end

