-- ==== Sys2Proof/Laws/Ops.lean ====
section
/-!
SUPPORT. What the wide-integer operations compute (spec/41_datapath_units.md R101 to R105), said once over numbers.
-/

namespace Sys2Proof.Machine

theorem hiLimb_toNat (v : U256) : (hiLimb v).toNat = v.toNat / 2 ^ 128 := by
  have := v.isLt
  simp only [hiLimb, BitVec.extractLsb'_toNat, Nat.shiftRight_eq_div_pow]
  omega

theorem loLimb_toNat (v : U256) : (loLimb v).toNat = v.toNat % 2 ^ 128 := by
  simp [loLimb, BitVec.extractLsb'_toNat]

@[simp] theorem addc_fst (x y : U128) : (addc x y false).1 = x + y := by
  simp [addc]

@[simp] theorem subb_fst (x y : U128) : (subb x y false).1 = x - y := by
  simp [subb]

theorem addc_carry_toNat (x y : U128) (cin : Bool) :
    (addc x y cin).1.toNat = (x.toNat + y.toNat + cin.toNat) % 2 ^ 128 := by
  cases cin <;> simp [addc, BitVec.toNat_add, BitVec.ofBool]

theorem subb_borrow_toNat (x y : U128) (bin : Bool) :
    (subb x y bin).1.toNat = (x.toNat + (2 ^ 129 - y.toNat - bin.toNat)) % 2 ^ 128 := by
  have hx := x.isLt
  have hy := y.isLt
  cases bin
  · simp only [subb_fst, BitVec.toNat_sub, Bool.toNat_false]
    omega
  · simp [subb, BitVec.toNat_sub, BitVec.ofBool]
    omega

theorem concat_toNat (x y : U128) : (x ++ y : U256).toNat = x.toNat * 2 ^ 128 + y.toNat := by
  have hy := y.isLt
  rw [BitVec.toNat_append, ← Nat.shiftLeft_add_eq_or_of_lt hy, Nat.shiftLeft_eq]

/-- The limbs and the carry between them give the 256-bit sum. -/
@[simp] theorem add256_fst (v w : U256) : (add256 v w).1 = v + w := by
  apply BitVec.eq_of_toNat_eq
  have hv := v.isLt
  have hw := w.isLt
  have hl := loLimb_toNat v
  have hl' := loLimb_toNat w
  have hh := hiLimb_toNat v
  have hh' := hiLimb_toNat w
  simp only [add256, concat_toNat, addc_carry_toNat, BitVec.toNat_add, hl, hl', hh, hh']
  simp only [addc, hl, hl', Bool.toNat_false, Nat.add_zero]
  by_cases hc : 2 ^ 128 ≤ v.toNat % 2 ^ 128 + w.toNat % 2 ^ 128 <;>
    simp only [hc, decide_true, decide_false, Bool.toNat_true, Bool.toNat_false] <;> omega

/-- The limbs and the borrow between them give the 256-bit difference. -/
@[simp] theorem sub256_fst (v w : U256) : (sub256 v w).1 = v - w := by
  apply BitVec.eq_of_toNat_eq
  have hv := v.isLt
  have hw := w.isLt
  have hl := loLimb_toNat v
  have hl' := loLimb_toNat w
  have hh := hiLimb_toNat v
  have hh' := hiLimb_toNat w
  simp only [sub256, concat_toNat, subb_borrow_toNat, BitVec.toNat_sub, hl, hl', hh, hh']
  simp only [subb, hl, hl', Bool.toNat_false, Nat.add_zero, Nat.sub_zero]
  by_cases hc : v.toNat % 2 ^ 128 < w.toNat % 2 ^ 128 <;>
    simp only [hc, decide_true, decide_false, Bool.toNat_true, Bool.toNat_false] <;> omega

@[simp] theorem orBits_eq_false {n : Nat} (v : BitVec n) : orBits v = false ↔ v = 0#n := by
  simp [orBits]

theorem orBits_eq_toNat {n : Nat} (v : BitVec n) : orBits v = decide (v.toNat ≠ 0) := by
  by_cases h : v = 0#n
  · simp [orBits, h]
  · have : v.toNat ≠ 0 := fun h' => h (BitVec.eq_of_toNat_eq (by simpa using h'))
    simp [orBits, h, this]

@[simp] theorem srs_zero {n : Nat} (v : BitVec n) : srs v 0 = (v, false) := by
  simp [srs]

/-- The shifted value of `shift_right_sticky` is the floor quotient (R103). -/
theorem srs_fst_toNat {n : Nat} (v : BitVec n) (d : Nat) : (srs v d).1.toNat = v.toNat / 2 ^ d := by
  unfold srs
  split
  · next h => simp [h]
  · split
    · simp [Nat.shiftRight_eq_div_pow]
    · next h =>
      have : v.toNat < 2 ^ d := lt_of_lt_of_le v.isLt (Nat.pow_le_pow_right (by omega) (by omega))
      simp [Nat.div_eq_of_lt this]

/-- The sticky bit of `shift_right_sticky` says that the remainder is not 0 (R103). -/
theorem srs_snd {n : Nat} (v : BitVec n) (d : Nat) :
    (srs v d).2 = decide (v.toNat % 2 ^ d ≠ 0) := by
  unfold srs
  split
  · next h => simp [h, Nat.mod_one]
  · split
    · simp [orBits_eq_toNat]
    · next h =>
      have : v.toNat < 2 ^ d := lt_of_lt_of_le v.isLt (Nat.pow_le_pow_right (by omega) (by omega))
      simp [orBits_eq_toNat, Nat.mod_eq_of_lt this]

/-- A jam by a distance that loses nothing is the exact quotient (R105). -/
theorem jam_eq_of_dvd {n : Nat} (v : BitVec n) (d : Nat) (h : v.toNat % 2 ^ d = 0) :
    jam v d = (srs v d).1 := by
  simp [jam, srs_snd, h]

@[simp] theorem jam_zero {n : Nat} (v : BitVec n) : jam v 0 = v := by
  simp [jam]

theorem toNat_pos_of_ne_zero {n : Nat} {v : BitVec n} (h : v ≠ 0#n) : 0 < v.toNat := by
  rcases Nat.eq_zero_or_pos v.toNat with h' | h'
  · exact absurd (BitVec.eq_of_toNat_eq (by simpa using h')) h
  · exact h'

@[simp] theorem clz_zero {n : Nat} : clz (0#n) = n := by
  simp [clz]

theorem log2_lt_width {n : Nat} {v : BitVec n} (h : v ≠ 0#n) : v.toNat.log2 < n :=
  (Nat.log2_lt (toNat_pos_of_ne_zero h).ne').2 v.isLt

/-- A nonzero vector has fewer leading zeros than bits. -/
theorem clz_lt {n : Nat} {v : BitVec n} (h : v ≠ 0#n) : clz v < n := by
  have := log2_lt_width h
  simp only [clz, h, if_false]
  omega

/-- Above the leading 1 there is nothing (R102). -/
theorem lt_pow_sub_clz {n : Nat} (v : BitVec n) : v.toNat < 2 ^ (n - clz v) := by
  by_cases h : v = 0#n
  · simp [h]
  · have hl := log2_lt_width h
    have : n - clz v = v.toNat.log2 + 1 := by simp only [clz, h, if_false]; omega
    rw [this]
    exact Nat.lt_log2_self

/-- The leading 1 stands right under the leading zeros (R102). -/
theorem pow_le_of_clz {n : Nat} {v : BitVec n} (h : v ≠ 0#n) : 2 ^ (n - 1 - clz v) ≤ v.toNat := by
  have hl := log2_lt_width h
  have : n - 1 - clz v = v.toNat.log2 := by simp only [clz, h, if_false]; omega
  rw [this]
  exact Nat.log2_self_le (toNat_pos_of_ne_zero h).ne'

/-- A left shift by at most the count of leading zeros loses no bit (R102, U6). -/
theorem shiftLeft_toNat_of_le_clz {n : Nat} (v : BitVec n) (k : Nat) (h : k ≤ clz v) :
    (v <<< k).toNat = v.toNat * 2 ^ k := by
  have hv := lt_pow_sub_clz v
  have hn : clz v ≤ n := by
    by_cases h0 : v = 0#n
    · simp [h0]
    · exact (clz_lt h0).le
  have : v.toNat * 2 ^ k < 2 ^ n := by
    calc v.toNat * 2 ^ k < 2 ^ (n - clz v) * 2 ^ k := Nat.mul_lt_mul_of_pos_right hv (by positivity)
      _ ≤ 2 ^ (n - clz v) * 2 ^ clz v := Nat.mul_le_mul_left _ (Nat.pow_le_pow_right (by omega) h)
      _ = 2 ^ n := by rw [← pow_add]; congr 1; omega
  rw [BitVec.toNat_shiftLeft, Nat.shiftLeft_eq, Nat.mod_eq_of_lt this]

end Sys2Proof.Machine
end

