-- ==== Sys2Proof/Laws/Operands.lean ====
section
/-!
SUPPORT. The format, the classifier and the decomposer (spec/30_encoding.md R55 to R59, spec/40_decompose_classify.md R80 to
R89), said over numbers; the named patterns and the sign flip.
-/

namespace Sys2Proof.Machine

theorem signOf_eq_toNat (x : Float128) : signOf x = decide (2 ^ 127 ≤ x.toNat) := by
  have := x.isLt
  rw [signOf, ← BitVec.msb_eq_getLsbD_last (x := x), BitVec.msb_eq_decide]

theorem bexpOf_toNat (x : Float128) : (bexpOf x).toNat = x.toNat / 2 ^ 112 % 2 ^ 15 := by
  simp [bexpOf, BitVec.extractLsb'_toNat, Nat.shiftRight_eq_div_pow]

theorem fracOf_toNat (x : Float128) : (fracOf x).toNat = x.toNat % 2 ^ 112 := by
  simp [fracOf, BitVec.extractLsb'_toNat]

/-- A pattern is its three fields, laid side by side (R55). -/
theorem toNat_eq_fields (x : Float128) :
    x.toNat = (signOf x).toNat * 2 ^ 127 + (bexpOf x).toNat * 2 ^ 112 + (fracOf x).toNat := by
  have := x.isLt
  rw [bexpOf_toNat, fracOf_toNat, signOf_eq_toNat]
  by_cases h : 2 ^ 127 ≤ x.toNat
  · simp only [h, decide_true, Bool.toNat_true]
    omega
  · simp only [h, decide_false, Bool.toNat_false]
    omega

theorem pack_toNat (s : Bool) (e : BitVec 15) (f : BitVec 112) :
    (pack s e f).toNat = s.toNat * 2 ^ 127 + e.toNat * 2 ^ 112 + f.toNat := by
  have he := e.isLt
  have hf := f.isLt
  have h1 : (e ++ f).toNat = e.toNat * 2 ^ 112 + f.toNat := by
    rw [BitVec.toNat_append, ← Nat.shiftLeft_add_eq_or_of_lt hf, Nat.shiftLeft_eq]
  have h2 : (e ++ f).toNat < 2 ^ 127 := by omega
  rw [pack, BitVec.toNat_append, ← Nat.shiftLeft_add_eq_or_of_lt h2, Nat.shiftLeft_eq, h1]
  cases s
  · simp
  · simp
    omega

@[simp] theorem signOf_pack (s : Bool) (e : BitVec 15) (f : BitVec 112) : signOf (pack s e f) = s := by
  have he := e.isLt
  have hf := f.isLt
  rw [signOf_eq_toNat, pack_toNat]
  cases s <;> simp <;> omega

@[simp] theorem bexpOf_pack (s : Bool) (e : BitVec 15) (f : BitVec 112) : bexpOf (pack s e f) = e := by
  have he := e.isLt
  have hf := f.isLt
  apply BitVec.eq_of_toNat_eq
  rw [bexpOf_toNat, pack_toNat]
  cases s <;> simp <;> omega

@[simp] theorem fracOf_pack (s : Bool) (e : BitVec 15) (f : BitVec 112) : fracOf (pack s e f) = f := by
  have he := e.isLt
  have hf := f.isLt
  apply BitVec.eq_of_toNat_eq
  rw [fracOf_toNat, pack_toNat]
  cases s <;> simp <;> omega

theorem signedZero_eq_pack (s : Bool) : signedZero s = pack s 0#15 0#112 := by
  cases s <;> decide

@[simp] theorem signOf_signedZero (s : Bool) : signOf (signedZero s) = s := by
  cases s <;> decide

@[simp] theorem cls_signedZero (s : Bool) : cls (signedZero s) = .zero := by
  cases s <;> decide

@[simp] theorem signOf_signedInf (s : Bool) : signOf (signedInf s) = s := by
  cases s <;> decide

@[simp] theorem cls_signedInf (s : Bool) : cls (signedInf s) = .infinity := by
  cases s <;> decide

@[simp] theorem signOf_signedMaxFin (s : Bool) : signOf (signedMaxFin s) = s := by
  cases s <;> decide

@[simp] theorem cls_signedMaxFin (s : Bool) : cls (signedMaxFin s) = .normal := by
  cases s <;> decide

/-- What the spec asks of `DEFAULT_QNAN` whatever its bits are (R152). -/
@[simp] theorem cls_defaultQNaN : cls defaultQNaN = .qNaN := by
  decide

/-- The class of a packed value whose exponent field is not the special one. -/
theorem cls_pack (s : Bool) (e : BitVec 15) (f : BitVec 112) (h : e ≠ 0x7FFF#15) :
    cls (pack s e f) = if e = 0#15 then (if f = 0#112 then .zero else .subnormal) else .normal := by
  simp only [cls, bexpOf_pack, fracOf_pack, h, if_false]

theorem isFinite_iff_bexp (x : Float128) : isFinite x = true ↔ bexpOf x ≠ 0x7FFF#15 := by
  unfold isFinite cls
  split_ifs with h0 hf h1 <;> simp_all

theorem isFinite_iff_cls (x : Float128) :
    isFinite x = true ↔ cls x = .zero ∨ cls x = .subnormal ∨ cls x = .normal := by
  simp [isFinite, or_assoc]

theorem isNaN_iff_cls (x : Float128) : isNaN x = true ↔ cls x = .qNaN ∨ cls x = .sNaN := by
  simp [isNaN]

theorem isInf_iff_cls (x : Float128) : isInf x = true ↔ cls x = .infinity := by
  simp [isInf]

theorem isZero_iff_cls (x : Float128) : isZero x = true ↔ cls x = .zero := by
  simp [isZero]

theorem isNonzeroFinite_iff_cls (x : Float128) :
    isNonzeroFinite x = true ↔ cls x = .subnormal ∨ cls x = .normal := by
  simp [isNonzeroFinite]

/-- No NaN and no infinity: finite. -/
theorem isFinite_of_not_special {x : Float128} (hn : isNaN x = false) (hi : isInf x = false) :
    isFinite x = true := by
  unfold isNaN isInf at *
  unfold isFinite
  cases h : cls x <;> simp_all

theorem isNaN_of_finite {x : Float128} (h : isFinite x = true) : isNaN x = false := by
  unfold isNaN
  rcases (isFinite_iff_cls x).1 h with h | h | h <;> simp [h]

theorem isInf_of_finite {x : Float128} (h : isFinite x = true) : isInf x = false := by
  unfold isInf
  rcases (isFinite_iff_cls x).1 h with h | h | h <;> simp [h]

theorem cls_normal_iff (x : Float128) :
    cls x = .normal ↔ bexpOf x ≠ 0#15 ∧ bexpOf x ≠ 0x7FFF#15 := by
  unfold cls
  split_ifs <;> simp_all

/-- The significand is the fraction, under a leading 1 for a Normal operand (R82). -/
theorem sigOf_toNat (x : Float128) :
    (sigOf x).toNat = (if cls x = .normal then 2 ^ 112 else 0) + (fracOf x).toNat := by
  have hf := (fracOf x).isLt
  unfold sigOf
  rw [BitVec.toNat_append, ← Nat.shiftLeft_add_eq_or_of_lt hf, Nat.shiftLeft_eq]
  by_cases h : cls x = .normal
  · simp [h]
  · have hb : (cls x == Cls.normal) = false := by simpa using h
    simp [h, hb]

theorem sigOf_lt (x : Float128) : (sigOf x).toNat < 2 ^ 113 :=
  (sigOf x).isLt

/-- "all callers see exponents ≥ 1" (R83). -/
theorem one_le_expOf (x : Float128) : 1 ≤ expOf x := by
  unfold expOf
  split
  · omega
  · next h =>
    have := toNat_pos_of_ne_zero h
    omega

theorem expOf_le (x : Float128) : expOf x ≤ 0x7FFF := by
  unfold expOf
  have := (bexpOf x).isLt
  split <;> omega

/-- A finite operand has a finite exponent (R83). -/
theorem expOf_lt_of_finite {x : Float128} (h : isFinite x = true) : expOf x ≤ 0x7FFE := by
  have h1 := (isFinite_iff_bexp x).1 h
  have h2 : (bexpOf x).toNat ≠ 0x7FFF := fun h' => h1 (BitVec.eq_of_toNat_eq (by simpa using h'))
  have := (bexpOf x).isLt
  unfold expOf
  split <;> omega

/-- Zero has significand 0 (R82). -/
theorem sigOf_of_zero {x : Float128} (h : cls x = .zero) : sigOf x = 0#113 := by
  apply BitVec.eq_of_toNat_eq
  rw [sigOf_toNat, h]
  unfold cls at h
  split_ifs at h with h0 hf
  simp [hf]

/-- A nonzero finite operand has a nonzero significand (R82). -/
theorem sigOf_pos_of_nonzeroFinite {x : Float128} (h : isNonzeroFinite x = true) :
    0 < (sigOf x).toNat := by
  rw [sigOf_toNat]
  rcases (isNonzeroFinite_iff_cls x).1 h with h | h
  · have hf : fracOf x ≠ 0#112 := by
      intro hf
      unfold cls at h
      split_ifs at h
    have := toNat_pos_of_ne_zero hf
    omega
  · simp [h]

/-- Below the leading bit only a significand of exponent 1 can stand (R82, R83). -/
theorem sigOf_ge_or_exp_one {x : Float128} (h : isFinite x = true) :
    2 ^ 112 ≤ (sigOf x).toNat ∨ expOf x = 1 := by
  by_cases hn : cls x = .normal
  · left
    rw [sigOf_toNat]
    simp [hn]
  · right
    have h1 := (isFinite_iff_bexp x).1 h
    have : bexpOf x = 0#15 := by
      by_contra h0
      exact hn ((cls_normal_iff x).2 ⟨h0, h1⟩)
    simp [expOf, this]

@[simp] theorem decompose_sign (x : Float128) : (decompose x).sign = signOf x := rfl
@[simp] theorem decompose_exp (x : Float128) : (decompose x).exp = expOf x := rfl
@[simp] theorem decompose_sig (x : Float128) : (decompose x).sig = sigOf x := rfl
@[simp] theorem decompose_cls (x : Float128) : (decompose x).cls = cls x := rfl

@[simp] theorem effective_false (x : Float128) : effective false x = x := rfl
@[simp] theorem effective_true (x : Float128) : effective true x = negate x := rfl

@[simp] theorem negate_negate (x : Float128) : negate (negate x) = x := by
  simp [negate]

theorem negate_getLsbD (x : Float128) (i : Nat) :
    (negate x).getLsbD i = (x.getLsbD i ^^ decide (i = 127)) := by
  simp only [negate, BitVec.getLsbD_xor, BitVec.getLsbD_shiftLeft, BitVec.getLsbD_one]
  by_cases h : i = 127
  · simp [h]
  · by_cases h2 : i < 127
    · simp [h, h2]
    · have : ¬ i < 128 := by omega
      simp [h, this]

/-- The flip changes the sign (R172). -/
@[simp] theorem signOf_negate (x : Float128) : signOf (negate x) = !signOf x := by
  rw [signOf, negate_getLsbD]
  simp [signOf]

@[simp] theorem bexpOf_negate (x : Float128) : bexpOf (negate x) = bexpOf x := by
  apply BitVec.eq_of_getLsbD_eq
  intro i hi
  simp only [bexpOf, BitVec.getLsbD_extractLsb', hi, decide_true, Bool.true_and, negate_getLsbD]
  have : ¬ 112 + i = 127 := by omega
  simp [this]

@[simp] theorem fracOf_negate (x : Float128) : fracOf (negate x) = fracOf x := by
  apply BitVec.eq_of_getLsbD_eq
  intro i hi
  simp only [fracOf, BitVec.getLsbD_extractLsb', hi, decide_true, Bool.true_and, negate_getLsbD]
  have : ¬ i = 127 := by omega
  simp [this]

/-- The sign plays no part in the class (R81). -/
@[simp] theorem cls_negate (x : Float128) : cls (negate x) = cls x := by
  simp [cls]

@[simp] theorem sigOf_negate (x : Float128) : sigOf (negate x) = sigOf x := by
  simp [sigOf]

@[simp] theorem expOf_negate (x : Float128) : expOf (negate x) = expOf x := by
  simp [expOf]

@[simp] theorem isNaN_negate (x : Float128) : isNaN (negate x) = isNaN x := by
  simp [isNaN]

@[simp] theorem isInf_negate (x : Float128) : isInf (negate x) = isInf x := by
  simp [isInf]

@[simp] theorem isZero_negate (x : Float128) : isZero (negate x) = isZero x := by
  simp [isZero]

@[simp] theorem isFinite_negate (x : Float128) : isFinite (negate x) = isFinite x := by
  simp [isFinite]

theorem quiet_getLsbD (x : Float128) (i : Nat) :
    (quiet x).getLsbD i = (x.getLsbD i || decide (i = 111)) := by
  simp only [quiet, BitVec.getLsbD_or, BitVec.getLsbD_shiftLeft, BitVec.getLsbD_one]
  by_cases h : i = 111
  · simp [h]
  · by_cases h2 : i < 111
    · simp [h, h2]
    · by_cases h3 : i < 128
      · have : ¬ i - 111 = 0 := by omega
        simp [h, h2, this]
      · simp [h, h3]

@[simp] theorem bexpOf_quiet (x : Float128) : bexpOf (quiet x) = bexpOf x := by
  apply BitVec.eq_of_getLsbD_eq
  intro i hi
  simp only [bexpOf, BitVec.getLsbD_extractLsb', hi, decide_true, Bool.true_and, quiet_getLsbD]
  have : ¬ 112 + i = 111 := by omega
  simp [this]

theorem fracOf_quiet_quietBit (x : Float128) : (fracOf (quiet x)).getLsbD 111 = true := by
  simp [fracOf, quiet_getLsbD]

/-- A NaN has the special exponent field (R56). -/
theorem bexpOf_of_isNaN {x : Float128} (h : isNaN x = true) : bexpOf x = 0x7FFF#15 := by
  by_contra h1
  have := isNaN_of_finite ((isFinite_iff_bexp x).2 h1)
  simp [h] at this

end Sys2Proof.Machine
end

