-- ==== Sys2Proof/Laws/Datapath.lean ====
section
/-!
SUPPORT. What the layouts and the multiplier compute, said over numbers (spec/41_datapath_units.md R108, R109).
-/

namespace Sys2Proof.Machine

theorem laneOf_toNat (m : Sig) : (laneOf m).toNat = m.toNat * 2 ^ 14 := by
  have hm := m.isLt
  simp only [laneOf, BitVec.toNat_shiftLeft, BitVec.toNat_setWidth, Nat.shiftLeft_eq]
  omega

theorem factorOf_toNat (m : Sig) : (factorOf m).toNat = m.toNat * 2 ^ 15 := by
  have hm := m.isLt
  simp only [factorOf, BitVec.toNat_shiftLeft, BitVec.toNat_setWidth, Nat.shiftLeft_eq]
  omega

theorem frameOf_toNat (m : Sig) : (frameOf m).toNat = m.toNat * 2 ^ 142 := by
  have hm := m.isLt
  simp only [frameOf, BitVec.toNat_shiftLeft, BitVec.toNat_setWidth, Nat.shiftLeft_eq]
  omega

theorem frameOfLane_toNat (r : U128) : (frameOfLane r).toNat = r.toNat * 2 ^ 128 := by
  simp [frameOfLane, concat_toNat]

/-- The 256-bit product is exact (R108). -/
theorem mul128_toNat (x y : U128) : (mul128 x y).toNat = x.toNat * y.toNat := by
  have hx := x.isLt
  have hy := y.isLt
  have h : x.toNat * y.toNat < 2 ^ 256 := by
    calc x.toNat * y.toNat < 2 ^ 128 * 2 ^ 128 := Nat.mul_lt_mul'' hx hy
      _ = 2 ^ 256 := by norm_num
  simp only [mul128, BitVec.toNat_mul, BitVec.toNat_setWidth]
  rw [Nat.mod_eq_of_lt (by omega : x.toNat < 2 ^ 256), Nat.mod_eq_of_lt (by omega : y.toNat < 2 ^ 256),
    Nat.mod_eq_of_lt h]

/-- The product frame of two significands: `ma * mb * 2^30` (R190). -/
theorem productFrame_toNat (ma mb : Sig) :
    (productFrame ma mb).toNat = ma.toNat * mb.toNat * 2 ^ 30 := by
  rw [productFrame, mul128_toNat, factorOf_toNat, factorOf_toNat]
  ring

theorem productFrame_comm (ma mb : Sig) : productFrame ma mb = productFrame mb ma := by
  apply BitVec.eq_of_toNat_eq
  rw [productFrame_toNat, productFrame_toNat, Nat.mul_comm ma.toNat]

theorem narrowDiv_fst_toNat {n : U128} {d : U64} (h : n.toNat / 2 ^ 64 < d.toNat) :
    (narrowDiv n d).1.toNat = n.toNat / d.toNat := by
  have hd : 0 < d.toNat := by omega
  have : n.toNat / d.toNat < 2 ^ 64 := by
    rw [Nat.div_lt_iff_lt_mul hd]
    have := Nat.div_add_mod n.toNat (2 ^ 64)
    have := Nat.mod_lt n.toNat (show 0 < 2 ^ 64 by norm_num)
    calc n.toNat < 2 ^ 64 * (n.toNat / 2 ^ 64 + 1) := by omega
      _ ≤ 2 ^ 64 * d.toNat := Nat.mul_le_mul_left _ h
  simp only [narrowDiv, BitVec.toNat_ofNat, Nat.mod_eq_of_lt this]

theorem narrowDiv_snd_toNat {n : U128} {d : U64} (h : 0 < d.toNat) :
    (narrowDiv n d).2.toNat = n.toNat % d.toNat := by
  have hd := d.isLt
  have : n.toNat % d.toNat < 2 ^ 64 := lt_trans (Nat.mod_lt _ h) hd
  simp only [narrowDiv, BitVec.toNat_ofNat, Nat.mod_eq_of_lt this]

end Sys2Proof.Machine
end

