-- ==== Sys2Proof/Laws/State.lean ====
section
/-!
SUPPORT. One lemma per field per update of State, so that no later proof unfolds a record update.
-/

namespace Sys2Proof.Machine

variable (s : State) (op : BitVec 4) (a b c v w : Float128) (nbits n : Nat)

@[simp] theorem respond_op_i : (s.respond v).op_i = s.op_i := rfl
@[simp] theorem respond_a_i : (s.respond v).a_i = s.a_i := rfl
@[simp] theorem respond_b_i : (s.respond v).b_i = s.b_i := rfl
@[simp] theorem respond_c_i : (s.respond v).c_i = s.c_i := rfl
@[simp] theorem respond_result_o : (s.respond v).result_o = v := rfl

@[simp] theorem present_op_i : (s.present op a b c).op_i = op := rfl
@[simp] theorem present_a_i : (s.present op a b c).a_i = a := rfl
@[simp] theorem present_b_i : (s.present op a b c).b_i = b := rfl
@[simp] theorem present_c_i : (s.present op a b c).c_i = c := rfl
@[simp] theorem present_result_o : (s.present op a b c).result_o = s.result_o := rfl

@[simp] theorem withFetchWord_op_i :
    (s.withFetchWord nbits n).op_i = BitVec.ofNat 4 (n % 2 ^ nbits) := rfl
@[simp] theorem withFetchWord_a_i : (s.withFetchWord nbits n).a_i = s.a_i := rfl
@[simp] theorem withFetchWord_b_i : (s.withFetchWord nbits n).b_i = s.b_i := rfl
@[simp] theorem withFetchWord_c_i : (s.withFetchWord nbits n).c_i = s.c_i := rfl
@[simp] theorem withFetchWord_result_o : (s.withFetchWord nbits n).result_o = s.result_o := rfl

/-- The last answer is the one the result port carries. -/
@[simp] theorem respond_respond : (s.respond v).respond w = s.respond w := rfl

/-- Presenting the request that already stands on the ports changes nothing. -/
@[simp] theorem present_self : s.present s.op_i s.a_i s.b_i s.c_i = s := rfl

/-- Two states that agree on the ports are equal. -/
theorem state_ext {s t : State} (ho : s.op_i = t.op_i) (ha : s.a_i = t.a_i) (hb : s.b_i = t.b_i)
    (hc : s.c_i = t.c_i) (hr : s.result_o = t.result_o) : s = t := by
  cases s; cases t; simp_all

/-- Answering is injective: the result port tells the answer. -/
@[simp] theorem respond_inj : s.respond v = s.respond w ↔ v = w :=
  ⟨fun h => by simpa using congrArg State.result_o h, fun h => by rw [h]⟩

end Sys2Proof.Machine
end

