-- ==== Sys2Proof/Laws/Exec.lean ====
section
/-!
SUPPORT. What an instruction answers, as one equation per function (spec/30_encoding.md R60): later proofs cite these and
unfold neither `exec` nor a meaning.
-/

namespace Sys2Proof.Machine

theorem exec_add (m : Rounding) (s : State) :
    exec (instrOf m .add) s = .next (s.respond (addSub m s.a_i s.b_i false)) := by
  cases m <;> rfl

theorem exec_sub (m : Rounding) (s : State) :
    exec (instrOf m .sub) s = .next (s.respond (addSub m s.a_i s.b_i true)) := by
  cases m <;> rfl

theorem exec_mul (m : Rounding) (s : State) :
    exec (instrOf m .mul) s = .next (s.respond (mul m s.a_i s.b_i)) := by
  cases m <;> rfl

theorem exec_div (m : Rounding) (s : State) :
    exec (instrOf m .div) s = .next (s.respond (div m s.a_i s.b_i)) := by
  cases m <;> rfl

theorem exec_fma (m : Rounding) (s : State) :
    exec (instrOf m .fma) s = .next (s.respond (fma m s.a_i s.b_i s.c_i false)) := by
  cases m <;> rfl

theorem exec_fms (m : Rounding) (s : State) :
    exec (instrOf m .fms) s = .next (s.respond (fma m s.a_i s.b_i s.c_i true)) := by
  cases m <;> rfl

@[simp] theorem instrOf_mode_fn (i : Instr) : instrOf i.mode i.fn = i := by
  cases i <;> rfl

@[simp] theorem mode_instrOf (m : Rounding) (f : Fn) : (instrOf m f).mode = m := by
  cases m <;> cases f <;> rfl

@[simp] theorem fn_instrOf (m : Rounding) (f : Fn) : (instrOf m f).fn = f := by
  cases m <;> cases f <;> rfl

end Sys2Proof.Machine
end

