-- ==== Sys2Proof/Laws/PerInstr.lean ====
section
/-!
SUPPORT. Statements made per instruction: the command word of each instruction carries its policy in bit 3
and its function in bits 2:0 (spec/30_encoding.md R60).
-/

namespace Sys2Proof.Laws.CommandWord

/-- The word of `i` is well formed, its bit 3 is set exactly for round-to-odd, and bits 2:0 hold the code of its function. -/
def Statement (i : Instr) : Prop :=
  commandWellFormed (encode i) = true ∧ (encode i).getLsbD 3 = decide (i.mode = .ro) ∧
    (encode i).extractLsb' 0 3 = encodeFn i.fn

theorem addqRne : Statement .addqRne := by unfold Statement; decide
theorem subqRne : Statement .subqRne := by unfold Statement; decide
theorem mulqRne : Statement .mulqRne := by unfold Statement; decide
theorem divqRne : Statement .divqRne := by unfold Statement; decide
theorem fmaqRne : Statement .fmaqRne := by unfold Statement; decide
theorem fmsqRne : Statement .fmsqRne := by unfold Statement; decide
theorem addqRo : Statement .addqRo := by unfold Statement; decide
theorem subqRo : Statement .subqRo := by unfold Statement; decide
theorem mulqRo : Statement .mulqRo := by unfold Statement; decide
theorem divqRo : Statement .divqRo := by unfold Statement; decide
theorem fmaqRo : Statement .fmaqRo := by unfold Statement; decide
theorem fmsqRo : Statement .fmsqRo := by unfold Statement; decide

end Sys2Proof.Laws.CommandWord
end

