-- ==== Sys2Proof/Laws/Round.lean ====
section
/-!
SUPPORT. What the normalizer, the rounder and the packer can do, said once (spec/42_normalize_round.md R131 to R137).
-/

namespace Sys2Proof.Machine

@[simp] theorem deliver_special (mode : Rounding) (v : Float128) : deliver mode (.special v) = v := rfl

@[simp] theorem deliver_finite (mode : Rounding) (s : Bool) (e : Int) (m : U256) (x : Bool) :
    deliver mode (.finite s e m x) = normRoundPack mode s e m x := rfl

theorem bit255_eq (m : U256) : m.getLsbD 255 = decide (2 ^ 255 ≤ m.toNat) := by
  rw [← BitVec.msb_eq_getLsbD_last (x := m), BitVec.msb_eq_decide]

theorem bit254_eq {m : U256} (h : m.toNat < 2 ^ 255) : m.getLsbD 254 = decide (2 ^ 254 ≤ m.toNat) := by
  rw [BitVec.getLsbD, Nat.testBit_eq_decide_div_mod_eq, decide_eq_decide]
  omega

/-- N1 takes its branch exactly when the frame has reached the carry position (R131). -/
theorem normCarry_cases (f : Frame) :
    (2 ^ 255 ≤ f.m.toNat ∧ (normCarry f).exp = f.exp + 1 ∧ (normCarry f).m.toNat = f.m.toNat / 2 ∧
      (normCarry f).sticky = (f.sticky || decide (f.m.toNat % 2 = 1))) ∨
    (f.m.toNat < 2 ^ 255 ∧ normCarry f = f) := by
  have hb := bit255_eq f.m
  by_cases h : 2 ^ 255 ≤ f.m.toNat
  · rw [decide_eq_true h] at hb
    have h0 : f.m.getLsbD 0 = decide (f.m.toNat % 2 = 1) := by
      rw [BitVec.getLsbD, Nat.testBit_eq_decide_div_mod_eq, Nat.pow_zero, Nat.div_one]
    rw [normCarry, if_pos hb]
    exact Or.inl ⟨h, rfl, by simp [Nat.shiftRight_eq_div_pow], by rw [h0]⟩
  · rw [decide_eq_false h] at hb
    exact Or.inr ⟨by omega, by rw [normCarry, if_neg (by rw [hb]; decide)]⟩

/-- "After N1, `M[255] = 0`" (R131). -/
theorem normCarry_lt (f : Frame) : (normCarry f).m.toNat < 2 ^ 255 := by
  have := f.m.isLt
  rcases normCarry_cases f with ⟨-, -, h, -⟩ | ⟨h, h'⟩
  · omega
  · rw [h']; exact h

/-- N2: the frame moves right by the deficit, and the sticky bit takes what is lost (R132). -/
theorem normTiny_spec (f : Frame) :
    (normTiny f).exp = 1 ∧ (normTiny f).m.toNat = f.m.toNat / 2 ^ (1 - f.exp).toNat ∧
      (normTiny f).sticky = (f.sticky || decide (f.m.toNat % 2 ^ (1 - f.exp).toNat ≠ 0)) :=
  ⟨rfl, srs_fst_toNat _ _, by simp [normTiny, srs_snd]⟩

/-- N3: the frame moves left by at most its leading zeros, nothing is lost, and the exponent stays at least 1 (R133). -/
theorem normLeft_spec {f : Frame} (he : 1 ≤ f.exp) :
    ∃ sh : Nat, sh ≤ clz f.m - 1 ∧ (normLeft f).exp = f.exp - sh ∧ 1 ≤ (normLeft f).exp ∧
      (normLeft f).m.toNat = f.m.toNat * 2 ^ sh ∧ (normLeft f).sticky = f.sticky ∧
      (sh = clz f.m - 1 ∨ (normLeft f).exp = 1) := by
  refine ⟨min (clz f.m - 1) (f.exp - 1).toNat, min_le_left _ _, rfl, ?_, ?_, rfl, ?_⟩
  · simp only [normLeft]
    omega
  · exact shiftLeft_toNat_of_le_clz _ _ (by omega)
  · simp only [normLeft]
    omega

/-- `Normalize` ends in exactly one of its three ways (R130). -/
theorem normalize_cases (f : Frame) :
    ((normCarry f).exp < 1 ∧ normalize f = normTiny (normCarry f)) ∨
    (1 ≤ (normCarry f).exp ∧ 2 ^ 254 ≤ (normCarry f).m.toNat ∧ normalize f = normCarry f) ∨
    (1 ≤ (normCarry f).exp ∧ (normCarry f).m.toNat < 2 ^ 254 ∧
      normalize f = normLeft (normCarry f)) := by
  have hb := bit254_eq (normCarry_lt f)
  by_cases h : (normCarry f).exp < 1
  · exact Or.inl ⟨h, by rw [normalize, if_pos h]⟩
  · by_cases h2 : 2 ^ 254 ≤ (normCarry f).m.toNat
    · rw [decide_eq_true h2] at hb
      exact Or.inr (Or.inl ⟨by omega, h2, by rw [normalize, if_neg h, if_pos hb]⟩)
    · rw [decide_eq_false h2] at hb
      exact Or.inr (Or.inr ⟨by omega, by omega, by
        rw [normalize, if_neg h, if_neg (by rw [hb]; decide)]⟩)

theorem retained_toNat (f : Frame) : (retained f).toNat = f.m.toNat / 2 ^ 142 % 2 ^ 113 := by
  simp [retained, BitVec.extractLsb'_toNat, Nat.shiftRight_eq_div_pow]

theorem guardBit_eq (f : Frame) : guardBit f = decide (f.m.toNat / 2 ^ 141 % 2 = 1) := by
  simp [guardBit, BitVec.getLsbD, Nat.testBit_eq_decide_div_mod_eq]

theorem tailBit_eq (f : Frame) :
    tailBit f = (decide (f.m.toNat % 2 ^ 141 ≠ 0) || f.sticky) := by
  simp [tailBit, orBits_eq_toNat, BitVec.extractLsb'_toNat]

/-- A subnormal or zero result keeps its sign and takes exponent field 0 (R137). -/
theorem packResult_low (mode : Rounding) (s : Bool) (e : Int) {q : Sig} (h : q.getLsbD 112 = false) :
    packResult mode s e q = pack s 0#15 (q.extractLsb' 0 112) := by
  unfold packResult
  rw [h]
  rfl

/-- Exponent overflow under RNE (R137). -/
theorem packResult_overflow_rne (s : Bool) {e : Int} {q : Sig} (h : q.getLsbD 112 = true)
    (he : 0x7FFF ≤ e) : packResult .rne s e q = signedInf s := by
  unfold packResult
  rw [h]
  simp [Config.expSpecial, he]

/-- Exponent overflow under RO (R137). -/
theorem packResult_overflow_ro (s : Bool) {e : Int} {q : Sig} (h : q.getLsbD 112 = true)
    (he : 0x7FFF ≤ e) : packResult .ro s e q = signedMaxFin s := by
  unfold packResult
  rw [h]
  simp [Config.expSpecial, he]

/-- A normal result (R137). -/
theorem packResult_normal (mode : Rounding) (s : Bool) {e : Int} {q : Sig} (h : q.getLsbD 112 = true)
    (he : e < 0x7FFF) :
    packResult mode s e q = pack s (BitVec.ofInt 15 e) (q.extractLsb' 0 112) := by
  have : ¬ Config.expSpecial ≤ e := by simp only [Config.expSpecial]; omega
  unfold packResult
  rw [h]
  simp [this]

/-- The packer's four ways out (R137). -/
theorem packResult_cases (mode : Rounding) (s : Bool) (e : Int) (q : Sig) :
    (q.getLsbD 112 = false ∧ packResult mode s e q = pack s 0#15 (q.extractLsb' 0 112)) ∨
    (q.getLsbD 112 = true ∧ 0x7FFF ≤ e ∧ mode = .rne ∧ packResult mode s e q = signedInf s) ∨
    (q.getLsbD 112 = true ∧ 0x7FFF ≤ e ∧ mode = .ro ∧ packResult mode s e q = signedMaxFin s) ∨
    (q.getLsbD 112 = true ∧ e < 0x7FFF ∧
      packResult mode s e q = pack s (BitVec.ofInt 15 e) (q.extractLsb' 0 112)) := by
  cases h : q.getLsbD 112
  · exact Or.inl ⟨rfl, packResult_low mode s e h⟩
  · by_cases he : 0x7FFF ≤ e
    · cases mode
      · exact Or.inr (Or.inl ⟨rfl, he, rfl, packResult_overflow_rne s h he⟩)
      · exact Or.inr (Or.inr (Or.inl ⟨rfl, he, rfl, packResult_overflow_ro s h he⟩))
    · exact Or.inr (Or.inr (Or.inr ⟨rfl, by omega, packResult_normal mode s h (by omega)⟩))

end Sys2Proof.Machine
end

