-- ==== Sys2Proof/Laws/Special.lean ====
section
/-!
SUPPORT. When the resolver leaves a request to the finite path (spec/43_special_values.md R150), and what the pipelines
then deliver.
-/

namespace Sys2Proof.Machine

theorem resolveAdd_eq_none_iff (a b : Float128) (isSub : Bool) :
    resolveAdd a b isSub = none ↔ isFinite a = true ∧ isFinite b = true := by
  have hi : isInf (effective isSub b) = isInf b := by cases isSub <;> simp
  constructor
  · intro h
    unfold resolveAdd at h
    simp only [hi] at h
    split_ifs at h with h1 h2 h3 h4 h5 h6
    exact ⟨isFinite_of_not_special (by simpa using h1) (by simpa using h5),
      isFinite_of_not_special (by simpa using h2) (by simpa using h6)⟩
  · rintro ⟨ha, hb⟩
    simp [resolveAdd, isNaN_of_finite ha, isNaN_of_finite hb, isInf_of_finite ha, isInf_of_finite hb, hi]

theorem isNonzeroFinite_of_finite {x : Float128} (h : isFinite x = true) (hz : isZero x = false) :
    isNonzeroFinite x = true := by
  rcases (isFinite_iff_cls x).1 h with h | h | h <;> simp_all [isZero, isNonzeroFinite]

theorem isFinite_of_nonzeroFinite {x : Float128} (h : isNonzeroFinite x = true) : isFinite x = true := by
  rcases (isNonzeroFinite_iff_cls x).1 h with h | h <;> simp [isFinite, h]

theorem isZero_of_nonzeroFinite {x : Float128} (h : isNonzeroFinite x = true) : isZero x = false := by
  rcases (isNonzeroFinite_iff_cls x).1 h with h | h <;> simp [isZero, h]

theorem resolveMul_eq_none_iff (a b : Float128) :
    resolveMul a b = none ↔ isNonzeroFinite a = true ∧ isNonzeroFinite b = true := by
  constructor
  · intro h
    unfold resolveMul at h
    split_ifs at h with h1 h2 h3 h4 h5
    simp only [Bool.or_eq_true, not_or, Bool.not_eq_true] at *
    exact ⟨isNonzeroFinite_of_finite (isFinite_of_not_special h1 h3.1) h5.1,
      isNonzeroFinite_of_finite (isFinite_of_not_special h2 h3.2) h5.2⟩
  · rintro ⟨ha, hb⟩
    have ha' := isFinite_of_nonzeroFinite ha
    have hb' := isFinite_of_nonzeroFinite hb
    simp [resolveMul, isNaN_of_finite ha', isNaN_of_finite hb', isInf_of_finite ha', isInf_of_finite hb',
      isZero_of_nonzeroFinite ha, isZero_of_nonzeroFinite hb]

theorem resolveDiv_eq_none_iff (a b : Float128) :
    resolveDiv a b = none ↔ isNonzeroFinite a = true ∧ isNonzeroFinite b = true := by
  constructor
  · intro h
    unfold resolveDiv at h
    split_ifs at h with h1 h2 h3 h4 h5 h6 h7 h8
    simp only [Bool.not_eq_true] at *
    exact ⟨isNonzeroFinite_of_finite (isFinite_of_not_special h1 h3) h8,
      isNonzeroFinite_of_finite (isFinite_of_not_special h2 h5) h6⟩
  · rintro ⟨ha, hb⟩
    have ha' := isFinite_of_nonzeroFinite ha
    have hb' := isFinite_of_nonzeroFinite hb
    simp [resolveDiv, isNaN_of_finite ha', isNaN_of_finite hb', isInf_of_finite ha', isInf_of_finite hb',
      isZero_of_nonzeroFinite ha, isZero_of_nonzeroFinite hb]

theorem resolveFma_eq_none_iff (a b c : Float128) (isSub : Bool) :
    resolveFma a b c isSub = none ↔
      isNonzeroFinite a = true ∧ isNonzeroFinite b = true ∧ isFinite c = true := by
  have hi : isInf (effective isSub c) = isInf c := by cases isSub <;> simp
  constructor
  · intro h
    unfold resolveFma at h
    simp only [hi] at h
    split_ifs at h with h1 h2 h3 h4 h5 h6 h7 h8 h9 h10
    simp only [Bool.or_eq_true, not_or, Bool.not_eq_true] at *
    exact ⟨isNonzeroFinite_of_finite (isFinite_of_not_special h1 h5.1) h10.1,
      isNonzeroFinite_of_finite (isFinite_of_not_special h2 h5.2) h10.2,
      isFinite_of_not_special h4 h7⟩
  · rintro ⟨ha, hb, hc⟩
    have ha' := isFinite_of_nonzeroFinite ha
    have hb' := isFinite_of_nonzeroFinite hb
    simp [resolveFma, isNaN_of_finite ha', isNaN_of_finite hb', isInf_of_finite ha', isInf_of_finite hb',
      isZero_of_nonzeroFinite ha, isZero_of_nonzeroFinite hb, isNaN_of_finite hc, isInf_of_finite hc, hi]

/-- Two finite operands go down the finite path of add and subtract (R170). -/
theorem addSub_of_finite (m : Rounding) {a b : Float128} (isSub : Bool) (ha : isFinite a = true)
    (hb : isFinite b = true) :
    addSub m a b isSub = deliver m (addFinite a (effective isSub b)) := by
  rw [addSub, addSubResult, (resolveAdd_eq_none_iff a b isSub).2 ⟨ha, hb⟩]

/-- Two nonzero finite factors go down the finite path of multiply (R190). -/
theorem mul_of_nonzeroFinite (m : Rounding) {a b : Float128} (ha : isNonzeroFinite a = true)
    (hb : isNonzeroFinite b = true) : mul m a b = deliver m (mulFinite a b) := by
  rw [mul, mulResult, (resolveMul_eq_none_iff a b).2 ⟨ha, hb⟩]

/-- Two nonzero finite operands go down the finite path of divide (R200). -/
theorem div_of_nonzeroFinite (m : Rounding) {a b : Float128} (ha : isNonzeroFinite a = true)
    (hb : isNonzeroFinite b = true) : div m a b = deliver m (divFinite a b) := by
  rw [div, divResult, (resolveDiv_eq_none_iff a b).2 ⟨ha, hb⟩]

/-- A nonzero finite product and a finite addend go down the finite path of the fused operations (R210). -/
theorem fma_of_finite (m : Rounding) {a b c : Float128} (isSub : Bool) (ha : isNonzeroFinite a = true)
    (hb : isNonzeroFinite b = true) (hc : isFinite c = true) :
    fma m a b c isSub = deliver m (fmaFinite a b (effective isSub c)) := by
  rw [fma, fmaResult, (resolveFma_eq_none_iff a b c isSub).2 ⟨ha, hb, hc⟩]

end Sys2Proof.Machine
end

