-- ==== Sys2Proof/Laws/Value.lean ====
section
/-!
SUPPORT. The real value of a finite pattern (spec/40_decompose_classify.md R85).
-/

namespace Sys2Proof.Machine

theorem signFactor_ne_zero (s : Bool) : signFactor s ≠ 0 := by
  cases s <;> simp [signFactor]

theorem signFactor_xor (s t : Bool) : signFactor (s ^^ t) = signFactor s * signFactor t := by
  cases s <;> cases t <;> simp [signFactor]

theorem signFactor_not (s : Bool) : signFactor (!s) = -signFactor s := by
  cases s <;> simp [signFactor]

@[simp] theorem abs_signFactor (s : Bool) : |signFactor s| = 1 := by
  cases s <;> simp [signFactor]

theorem two_zpow_pos (e : Int) : (0 : ℚ) < 2 ^ e := by
  positivity

@[simp] theorem value_negate (x : Float128) : value (negate x) = -value x := by
  simp [value, signFactor_not]

/-- The magnitude of a value (R85). -/
theorem abs_value (x : Float128) : |value x| = ((sigOf x).toNat : ℚ) * 2 ^ (expOf x - 16495) := by
  rw [value, abs_mul, abs_mul, abs_signFactor, one_mul, abs_of_nonneg (Nat.cast_nonneg _),
    abs_of_pos (two_zpow_pos _)]

theorem value_eq_zero_iff_sig (x : Float128) : value x = 0 ↔ (sigOf x).toNat = 0 := by
  have h := abs_value x
  have hp := two_zpow_pos (expOf x - 16495)
  rw [← abs_eq_zero, h, mul_eq_zero]
  constructor
  · rintro (h' | h')
    · exact_mod_cast h'
    · exact absurd h' hp.ne'
  · intro h'
    left
    exact_mod_cast h'

theorem value_ne_zero_of_nonzeroFinite {x : Float128} (h : isNonzeroFinite x = true) : value x ≠ 0 := by
  rw [Ne, value_eq_zero_iff_sig]
  exact (sigOf_pos_of_nonzeroFinite h).ne'

theorem value_of_zero {x : Float128} (h : isZero x = true) : value x = 0 := by
  rw [value_eq_zero_iff_sig, sigOf_of_zero ((isZero_iff_cls x).1 h)]
  rfl

theorem value_pos {x : Float128} (h : isNonzeroFinite x = true) (hs : signOf x = false) : 0 < value x := by
  have := sigOf_pos_of_nonzeroFinite h
  have h1 : (0 : ℚ) < (sigOf x).toNat := by exact_mod_cast this
  rw [value, hs, signFactor, if_neg (by decide), one_mul]
  exact mul_pos h1 (two_zpow_pos _)

theorem value_neg {x : Float128} (h : isNonzeroFinite x = true) (hs : signOf x = true) : value x < 0 := by
  have h1 := value_pos (x := negate x)
    (by rcases (isNonzeroFinite_iff_cls x).1 h with h | h <;> simp [isNonzeroFinite, h]) (by simp [hs])
  rw [value_negate] at h1
  linarith

/-- The product frame stands for the exact product (R190). -/
theorem frameValue_productFrame (a b : Float128) :
    signFactor (signOf a ^^ signOf b) *
      frameValue (productExp (expOf a) (expOf b)) (productFrame (sigOf a) (sigOf b)) =
    value a * value b := by
  have h2 : (2 : ℚ) ≠ 0 := by norm_num
  have he : (2 : ℚ) ^ (productExp (expOf a) (expOf b) - 16637) * 2 ^ (30 : Int) =
      2 ^ (expOf a - 16495) * 2 ^ (expOf b - 16495) := by
    rw [← zpow_add₀ h2, ← zpow_add₀ h2]
    congr 1
    simp only [productExp, Config.bias]
    ring
  rw [signFactor_xor, frameValue, productFrame_toNat, value, value]
  push_cast
  have h30 : (2 : ℚ) ^ (30 : Int) = 1073741824 := by norm_num
  rw [h30] at he
  linear_combination
    (signFactor (signOf a) * signFactor (signOf b) * ((sigOf a).toNat : ℚ) * ((sigOf b).toNat : ℚ)) * he

end Sys2Proof.Machine
end

