-- ==== Sys2Proof/Laws/Rounding.lean ====
section
/-!
SUPPORT. The rounder and the packer on a normalised frame deliver the correctly rounded magnitude the frame holds
(spec/42_normalize_round.md R134 to R138): what "holds" means, the spacing of the finite values, the value of a packed
result, and the two policies.
-/

namespace Sys2Proof.Machine

/-- One unit of the last retained place at exponent `e`. -/
def ulp (e : Int) : ℚ := 2 ^ (e - 16495)

theorem ulp_pos (e : Int) : 0 < ulp e := two_zpow_pos _

theorem ulp_add (e : Int) (k : Nat) : ulp (e + k) = 2 ^ k * ulp e := by
  rw [ulp, ulp, show e + (k : Int) - 16495 = (k : Int) + (e - 16495) by ring,
    zpow_add₀ (by norm_num), zpow_natCast]

/-- The frame is in the normalizer's form (R131 to R133). -/
structure Normalized (f : Frame) : Prop where
  below : f.m.toNat < 2 ^ 255
  exp_pos : 1 ≤ f.exp
  leading : 2 ^ 254 ≤ f.m.toNat ∨ f.exp = 1

/-- The frame holds the magnitude `w`: its bits down to the guard bit are those of `w` at its exponent, and the tail says
whether anything stands below (R138). -/
structure Holds (f : Frame) (w : ℚ) : Prop where
  lower : ((f.m.toNat / 2 ^ 141 : Nat) : ℚ) * ulp f.exp ≤ 2 * w
  upper : 2 * w < (((f.m.toNat / 2 ^ 141 : Nat) : ℚ) + 1) * ulp f.exp
  exact : tailBit f = false ↔ 2 * w = ((f.m.toNat / 2 ^ 141 : Nat) : ℚ) * ulp f.exp

/-- A finite value is a whole number of units at exponent `e`, or lies below the least normal magnitude there. -/
theorem value_spacing (y : Float128) (e : Int) :
    (∃ k : Int, value y = k * ulp e) ∨ (e ≠ 1 ∧ |value y| < 2 ^ 112 * ulp e) := by
  by_cases h : e ≤ expOf y
  · left
    obtain ⟨j, hj⟩ := Int.le.dest h
    refine ⟨(if signOf y then -1 else 1) * ((sigOf y).toNat * 2 ^ j), ?_⟩
    have h1 : (2 : ℚ) ^ (expOf y - 16495) = 2 ^ j * ulp e := by
      rw [← ulp_add, hj, ulp]
    rw [value, h1, signFactor]
    cases signOf y <;> push_cast <;> simp <;> ring
  · right
    refine ⟨by have := one_le_expOf y; omega, ?_⟩
    have hs := sigOf_lt y
    have h1 : ulp e = 2 * ulp (e - 1) := by
      have := ulp_add (e - 1) 1
      rw [show e - 1 + ((1 : Nat) : Int) = e by push_cast; ring] at this
      rw [this]
      norm_num
    have h2 : (2 : ℚ) ^ (expOf y - 16495) ≤ ulp (e - 1) := by
      rw [ulp]
      exact zpow_le_zpow_right₀ (by norm_num) (by omega)
    have h3 : ((sigOf y).toNat : ℚ) < 2 ^ 113 := by exact_mod_cast hs
    rw [abs_value, h1]
    have h4 := two_zpow_pos (expOf y - 16495)
    calc ((sigOf y).toNat : ℚ) * 2 ^ (expOf y - 16495)
        < 2 ^ 113 * 2 ^ (expOf y - 16495) := by nlinarith
      _ ≤ 2 ^ 113 * ulp (e - 1) := by nlinarith
      _ = 2 ^ 112 * (2 * ulp (e - 1)) := by ring

theorem bit112_eq (q : Sig) : q.getLsbD 112 = decide (2 ^ 112 ≤ q.toNat) := by
  rw [← BitVec.msb_eq_getLsbD_last (x := q), BitVec.msb_eq_decide]

theorem low112_toNat (q : Sig) : (q.extractLsb' 0 112).toNat = q.toNat % 2 ^ 112 := by
  simp [BitVec.extractLsb'_toNat]

theorem getLsbD_zero_eq {n : Nat} (x : BitVec n) : x.getLsbD 0 = decide (x.toNat % 2 = 1) := by
  rw [BitVec.getLsbD, Nat.testBit_eq_decide_div_mod_eq, Nat.pow_zero, Nat.div_one]

theorem ofInt15_toNat {e : Int} (h0 : 0 ≤ e) (h1 : e < 0x7FFF) : ((BitVec.ofInt 15 e).toNat : Int) = e := by
  rw [BitVec.toNat_ofInt]
  omega

/-- A result below overflow is finite, has the sign, the value `q` units at exponent `e`, and the last bit of `q` (R137). -/
theorem packResult_value (mode : Rounding) (s : Bool) {e : Int} {q : Sig} (h1 : 1 ≤ e) (h2 : e < 0x7FFF)
    (hq : 2 ^ 112 ≤ q.toNat ∨ e = 1) :
    isFinite (packResult mode s e q) = true ∧ signOf (packResult mode s e q) = s ∧
      value (packResult mode s e q) = signFactor s * (q.toNat * ulp e) ∧
      (packResult mode s e q).getLsbD 0 = decide (q.toNat % 2 = 1) := by
  have hlt := q.isLt
  have hlow := low112_toNat q
  by_cases hb : 2 ^ 112 ≤ q.toNat
  · have hbit : q.getLsbD 112 = true := by rw [bit112_eq]; simpa using hb
    rw [packResult_normal mode s hbit h2]
    have he := ofInt15_toNat (by omega : 0 ≤ e) h2
    have hn0 : BitVec.ofInt 15 e ≠ 0#15 := by
      intro h
      rw [h] at he
      simp at he
      omega
    have hn1 : BitVec.ofInt 15 e ≠ 0x7FFF#15 := by
      intro h
      rw [h] at he
      simp at he
      omega
    have hc : cls (pack s (BitVec.ofInt 15 e) (q.extractLsb' 0 112)) = .normal := by
      rw [cls_pack _ _ _ hn1, if_neg hn0]
    have hsig : (sigOf (pack s (BitVec.ofInt 15 e) (q.extractLsb' 0 112))).toNat = q.toNat := by
      rw [sigOf_toNat, if_pos hc, fracOf_pack, hlow]
      omega
    have hexp : expOf (pack s (BitVec.ofInt 15 e) (q.extractLsb' 0 112)) = e := by
      rw [expOf, bexpOf_pack, if_neg hn0, he]
    refine ⟨by rw [isFinite_iff_cls]; simp [hc], signOf_pack _ _ _, ?_, ?_⟩
    · rw [value, signOf_pack, hsig, hexp, ulp, mul_assoc]
    · rw [getLsbD_zero_eq, pack_toNat, hlow, decide_eq_decide]
      cases s <;> (simp; omega)
  · have hbit : q.getLsbD 112 = false := by rw [bit112_eq]; simpa using hb
    have he : e = 1 := hq.resolve_left hb
    rw [packResult_low mode s e hbit]
    have hc : cls (pack s 0#15 (q.extractLsb' 0 112)) ≠ .normal := by
      rw [Ne, cls_normal_iff]
      simp
    have hsig : (sigOf (pack s 0#15 (q.extractLsb' 0 112))).toNat = q.toNat := by
      rw [sigOf_toNat, if_neg hc, fracOf_pack, hlow]
      omega
    have hexp : expOf (pack s 0#15 (q.extractLsb' 0 112)) = 1 := by
      rw [expOf, bexpOf_pack, if_pos rfl]
    refine ⟨by rw [isFinite_iff_bexp, bexpOf_pack]; decide, signOf_pack _ _ _, ?_, ?_⟩
    · rw [value, signOf_pack, hsig, hexp, he, ulp, mul_assoc]
    · rw [getLsbD_zero_eq, pack_toNat, hlow, decide_eq_decide]
      cases s
      · simp
      · simp
        omega

/-- The whole number within a half of `t` is the nearest one, and only at a half is another as near. -/
theorem nearest_of_half {n k : Int} {t : ℚ} (h : |(n : ℚ) - t| ≤ 1 / 2) (hk : k ≠ n) :
    |(n : ℚ) - t| ≤ |(k : ℚ) - t| ∧ (|(k : ℚ) - t| = |(n : ℚ) - t| → |(n : ℚ) - t| = 1 / 2) := by
  have h1 : (1 : ℚ) ≤ |(k : ℚ) - n| := by
    have : (1 : Int) ≤ |k - n| := Int.one_le_abs (sub_ne_zero.2 hk)
    exact_mod_cast this
  have h2 : |(k : ℚ) - n| ≤ |(k : ℚ) - t| + |(n : ℚ) - t| := by
    have := abs_sub_le (k : ℚ) t n
    rwa [abs_sub_comm t (n : ℚ)] at this
  exact ⟨by linarith, fun h' => by linarith⟩

theorem signFactor_mul_self (s : Bool) : signFactor s * signFactor s = 1 := by
  cases s <;> simp [signFactor]

/-- A distance from a signed magnitude, taken on the magnitude's side. -/
theorem abs_sub_signFactor_mul (s : Bool) (y w : ℚ) : |y - signFactor s * w| = |signFactor s * y - w| := by
  cases s
  · simp [signFactor]
  · simp only [signFactor, if_true, neg_one_mul]
    rw [← abs_neg]
    congr 1
    ring

/-- The value nearest to `w`: `n` units, when `n` is within half a unit and no value below the normal range at this exponent
comes near. -/
theorem nearest_value (s : Bool) {e : Int} {n : Nat} {w : ℚ} {r : Float128}
    (hr : value r = signFactor s * (n * ulp e)) (hh : |(n : ℚ) * ulp e - w| ≤ ulp e / 2)
    (hlow : e = 1 ∨ 2 ^ 112 * ulp e ≤ w)
    (htie : |(n : ℚ) * ulp e - w| = ulp e / 2 → r.getLsbD 0 = false) (y : Float128) :
    |value r - signFactor s * w| ≤ |value y - signFactor s * w| ∧
      (|value y - signFactor s * w| = |value r - signFactor s * w| → value y ≠ value r →
        r.getLsbD 0 = false) := by
  have hu := ulp_pos e
  set t : ℚ := w / ulp e with ht
  have hw : w = t * ulp e := by rw [ht, div_mul_cancel₀ _ hu.ne']
  have scale : ∀ z : ℚ, |z * ulp e - w| = |z - t| * ulp e := by
    intro z
    rw [hw, ← sub_mul, abs_mul, abs_of_pos hu]
  have hn : |((n : Int) : ℚ) - t| ≤ 1 / 2 := by
    have := scale n
    rw [this] at hh
    have h2 : |(n : ℚ) - t| * ulp e ≤ 1 / 2 * ulp e := by linarith
    exact_mod_cast le_of_mul_le_mul_right h2 hu
  have key : ∀ k : Int, k ≠ n → |((n : Nat) : ℚ) * ulp e - w| ≤ |(k : ℚ) * ulp e - w| ∧
      (|(k : ℚ) * ulp e - w| = |((n : Nat) : ℚ) * ulp e - w| → |((n : Nat) : ℚ) * ulp e - w| = ulp e / 2) := by
    intro k hk
    obtain ⟨h1, h2⟩ := nearest_of_half hn hk
    rw [scale, scale]
    push_cast at h1 h2
    refine ⟨mul_le_mul_of_nonneg_right h1 hu.le, fun h => ?_⟩
    rw [h2 (mul_right_cancel₀ hu.ne' h)]
    ring
  have hr' : |value r - signFactor s * w| = |(n : ℚ) * ulp e - w| := by
    rw [abs_sub_signFactor_mul, hr, ← mul_assoc, signFactor_mul_self, one_mul]
  rw [hr', abs_sub_signFactor_mul]
  have hy : (∃ k : Int, signFactor s * value y = k * ulp e) ∨
      (e ≠ 1 ∧ |signFactor s * value y| < 2 ^ 112 * ulp e) := by
    rcases value_spacing y e with ⟨k, hk⟩ | ⟨he, h⟩
    · left
      cases s
      · exact ⟨k, by simp [signFactor, hk]⟩
      · exact ⟨-k, by simp [signFactor, hk]⟩
    · right
      exact ⟨he, by rwa [abs_mul, abs_signFactor, one_mul]⟩
  rcases hy with ⟨k, hk⟩ | ⟨he, hy⟩
  · rw [hk]
    by_cases hkn : k = n
    · subst hkn
      refine ⟨by push_cast; exact le_refl _, fun _ hne => absurd ?_ hne⟩
      have : signFactor s * (signFactor s * value y) = signFactor s * (((n : Int) : ℚ) * ulp e) := by rw [hk]
      rw [← mul_assoc, signFactor_mul_self, one_mul] at this
      rw [this, hr]
      push_cast
      rfl
    · obtain ⟨h1, h2⟩ := key k hkn
      exact ⟨h1, fun h _ => htie (h2 h)⟩
  · have hlow := hlow.resolve_left he
    have hb : signFactor s * value y < 2 ^ 112 * ulp e := lt_of_abs_lt hy
    have hfar : |(2 ^ 112 : ℚ) * ulp e - w| < |signFactor s * value y - w| := by
      rw [abs_of_nonpos (by linarith), abs_of_nonpos (by linarith)]
      linarith
    have hle : |(n : ℚ) * ulp e - w| ≤ |(2 ^ 112 : ℚ) * ulp e - w| := by
      by_cases h : (2 ^ 112 : Int) = n
      · have : (n : ℚ) = 2 ^ 112 := by exact_mod_cast h.symm
        rw [this]
      · have := (key (2 ^ 112) h).1
        push_cast at this
        exact this
    exact ⟨by linarith, fun h _ => absurd h (by linarith)⟩

theorem abs_signFactor_mul {w : ℚ} (s : Bool) (hw : 0 < w) : |signFactor s * w| = w := by
  rw [abs_mul, abs_signFactor, one_mul, abs_of_pos hw]

theorem decide_signFactor_mul_neg {w : ℚ} (s : Bool) (hw : 0 < w) : decide (signFactor s * w < 0) = s := by
  cases s
  · simp only [signFactor]
    simp
    linarith
  · simp only [signFactor]
    simp
    linarith

/-- The retained integer with the nearest-even increment, before the carry is taken back (R136). -/
def nearestCount (f : Frame) : Nat :=
  (retained f).toNat + (if (guardBit f && (tailBit f || (retained f).getLsbD 0)) = true then 1 else 0)

theorem retained_toNat_of_below {f : Frame} (h : f.m.toNat < 2 ^ 255) :
    (retained f).toNat = f.m.toNat / 2 ^ 141 / 2 := by
  rw [retained_toNat]
  omega

theorem guardBit_eq_half (f : Frame) : guardBit f = decide (f.m.toNat / 2 ^ 141 % 2 = 1) :=
  guardBit_eq f

theorem nearestCount_le (f : Frame) : nearestCount f ≤ 2 ^ 113 := by
  have := (retained f).isLt
  unfold nearestCount
  split <;> omega

/-- The increment picks the nearest whole number of units, an even one at a half (R136, R138). -/
theorem nearestCount_near {f : Frame} {w : ℚ} (hn : Normalized f) (hh : Holds f w) :
    |(nearestCount f : ℚ) * ulp f.exp - w| ≤ ulp f.exp / 2 ∧
      (|(nearestCount f : ℚ) * ulp f.exp - w| = ulp f.exp / 2 → nearestCount f % 2 = 0) := by
  have hu := ulp_pos f.exp
  have hq := retained_toNat_of_below hn.below
  have hg := guardBit_eq_half f
  have hl := hh.lower
  have hup := hh.upper
  have hex := hh.exact
  set h := f.m.toNat / 2 ^ 141 with hdef
  have hodd : (retained f).getLsbD 0 = decide (h / 2 % 2 = 1) := by rw [getLsbD_zero_eq, hq]
  unfold nearestCount
  rw [hq, hg, hodd]
  by_cases hG : h % 2 = 1
  · have h2 : (h : ℚ) = 2 * ((h / 2 : Nat) : ℚ) + 1 := by
      have : h = 2 * (h / 2) + 1 := by omega
      exact_mod_cast this
    rw [h2] at hl hup hex
    cases hT : tailBit f
    · have he := hex.1 hT
      by_cases ho : h / 2 % 2 = 1
      · simp only [hG, ho, decide_true, Bool.or_true, Bool.and_true, if_true]
        push_cast
        refine ⟨?_, fun _ => by omega⟩
        rw [abs_of_nonneg (by nlinarith)]
        nlinarith
      · simp only [hG, ho, decide_true, decide_false, Bool.or_false, Bool.and_false]
        simp only [Bool.false_eq_true, if_false, Nat.add_zero]
        refine ⟨?_, fun _ => by omega⟩
        rw [abs_of_nonpos (by nlinarith)]
        nlinarith
    · have hne : 2 * w ≠ (2 * ((h / 2 : Nat) : ℚ) + 1) * ulp f.exp := fun he => by
        have := hex.2 he
        rw [hT] at this
        exact absurd this (by decide)
      have hlt := lt_of_le_of_ne hl (Ne.symm hne)
      simp only [hG, decide_true, Bool.true_or, Bool.and_true, if_true]
      push_cast
      have hpos : 0 ≤ (((h / 2 : Nat) : ℚ) + 1) * ulp f.exp - w := by nlinarith
      have hsm : (((h / 2 : Nat) : ℚ) + 1) * ulp f.exp - w < ulp f.exp / 2 := by nlinarith
      rw [abs_of_nonneg hpos]
      exact ⟨hsm.le, fun he => absurd he hsm.ne⟩
  · have h2 : (h : ℚ) = 2 * ((h / 2 : Nat) : ℚ) := by
      have : h = 2 * (h / 2) := by omega
      exact_mod_cast this
    rw [h2] at hl hup
    simp only [hG, decide_false, Bool.false_and, Bool.false_eq_true, if_false, Nat.add_zero]
    have hneg : ((h / 2 : Nat) : ℚ) * ulp f.exp - w ≤ 0 := by nlinarith
    have hsm : -(((h / 2 : Nat) : ℚ) * ulp f.exp - w) < ulp f.exp / 2 := by nlinarith
    rw [abs_of_nonpos hneg]
    exact ⟨hsm.le, fun he => absurd he hsm.ne⟩

/-- The rounder's output is the count, or one exponent step and half of it when the count has reached 2^113 (R136). -/
theorem roundToNearestEven_eq (f : Frame) :
    (nearestCount f < 2 ^ 113 ∧ (roundToNearestEven f).1 = f.exp ∧
      (roundToNearestEven f).2.toNat = nearestCount f) ∨
    (nearestCount f = 2 ^ 113 ∧ (roundToNearestEven f).1 = f.exp + 1 ∧
      (roundToNearestEven f).2.toNat = 2 ^ 112) := by
  have hlt := (retained f).isLt
  have hle := nearestCount_le f
  set q : BitVec 114 := (retained f).setWidth 114 +
    BitVec.setWidth 114 (BitVec.ofBool (guardBit f && (tailBit f || (retained f).getLsbD 0))) with hq
  have hqn : q.toNat = nearestCount f := by
    rw [hq, BitVec.toNat_add, nearestCount]
    cases guardBit f && (tailBit f || (retained f).getLsbD 0) <;>
      simp [BitVec.toNat_setWidth, BitVec.ofBool] <;> omega
  have hbit : q.getLsbD 113 = decide (2 ^ 113 ≤ q.toNat) := by
    rw [← BitVec.msb_eq_getLsbD_last (x := q), BitVec.msb_eq_decide]
  have hr : roundToNearestEven f =
      if q.getLsbD 113 then (f.exp + 1, (q >>> 1).setWidth 113) else (f.exp, q.setWidth 113) := rfl
  by_cases h : 2 ^ 113 ≤ q.toNat
  · right
    rw [decide_eq_true h] at hbit
    rw [hr, hbit]
    refine ⟨by omega, rfl, ?_⟩
    simp only [if_true, BitVec.toNat_setWidth, BitVec.toNat_ushiftRight, Nat.shiftRight_eq_div_pow]
    omega
  · left
    rw [decide_eq_false h] at hbit
    rw [hr, hbit]
    refine ⟨by omega, rfl, ?_⟩
    simp only [Bool.false_eq_true, if_false, BitVec.toNat_setWidth]
    omega

theorem ulp_le {a b : Int} (h : a ≤ b) : ulp a ≤ ulp b := by
  rw [ulp, ulp]
  exact zpow_le_zpow_right₀ (by norm_num) (by omega)

theorem overflowLimit_eq : overflowLimit = (2 ^ 113 - 1 / 2) * ulp 0x7FFE := by
  have h : ulp 0x7FFE = 2 * (2 : ℚ) ^ (16270 : Int) := by
    rw [ulp, show ((0x7FFE : Int) - 16495) = 16270 + 1 by norm_num, zpow_add₀ (by norm_num)]
    ring
  rw [overflowLimit, h]
  ring

theorem maxFinite_eq : maxFinite = (2 ^ 113 - 1) * ulp 0x7FFE := by
  rw [maxFinite, ulp]
  norm_num

/-- A normalised frame above exponent 1 holds at least 2^112 units. -/
theorem normalized_low {f : Frame} {w : ℚ} (hn : Normalized f) (hh : Holds f w) :
    f.exp = 1 ∨ (2 ^ 112 ≤ (retained f).toNat ∧ 2 ^ 112 * ulp f.exp ≤ w) := by
  rcases hn.leading with h | h
  · right
    have h1 : 2 ^ 113 ≤ f.m.toNat / 2 ^ 141 := by omega
    refine ⟨by rw [retained_toNat_of_below hn.below]; omega, ?_⟩
    have h2 : ((2 ^ 113 : Nat) : ℚ) ≤ ((f.m.toNat / 2 ^ 141 : Nat) : ℚ) := by exact_mod_cast h1
    have h3 := hh.lower
    have hu := ulp_pos f.exp
    push_cast at h2
    nlinarith
  · exact Or.inl h

/-- Round-to-nearest-even and the packer, on a normalised frame that holds `w`, deliver `w` rounded to nearest (R138). -/
theorem rne_of_holds {f : Frame} {w : ℚ} (s : Bool) (hn : Normalized f) (hh : Holds f w) (hw : 0 < w) :
    RoundsToNearestEven (signFactor s * w)
      (packResult .rne s (roundToNearestEven f).1 (roundToNearestEven f).2) := by
  have hu := ulp_pos f.exp
  have hlow := normalized_low hn hh
  obtain ⟨hnear, htie⟩ := nearestCount_near hn hh
  have hcount := roundToNearestEven_eq f
  have hge : (retained f).toNat ≤ nearestCount f := by unfold nearestCount; omega
  have hpos := hn.exp_pos
  have hlim := overflowLimit_eq
  rw [RoundsToNearestEven, abs_signFactor_mul s hw, decide_signFactor_mul_neg s hw]
  have hq : 2 ^ 112 ≤ (roundToNearestEven f).2.toNat ∨ (roundToNearestEven f).1 = 1 := by
    rcases hcount with ⟨h1, h2, h3⟩ | ⟨h1, h2, h3⟩
    · rcases hlow with h | ⟨h, -⟩
      · right; omega
      · left; omega
    · left; omega
  by_cases hov : 0x7FFF ≤ (roundToNearestEven f).1
  · -- overflow
    have hbit : (roundToNearestEven f).2.getLsbD 112 = true := by
      rw [bit112_eq]
      have := hq.resolve_right (by omega)
      simpa using this
    have hbig : overflowLimit ≤ w := by
      rw [hlim]
      rcases hcount with ⟨h1, h2, h3⟩ | ⟨h1, h2, h3⟩
      · obtain ⟨-, h⟩ := hlow.resolve_left (by omega)
        have h4 : ulp (0x7FFE + (1 : Nat)) ≤ ulp f.exp := ulp_le (by push_cast; omega)
        rw [ulp_add] at h4
        have h5 := ulp_pos 0x7FFE
        nlinarith
      · have h4 : ulp 0x7FFE ≤ ulp f.exp := ulp_le (by omega)
        rw [h1] at hnear
        push_cast at hnear
        have h5 := (abs_le.1 hnear).2
        nlinarith
    rw [packResult_overflow_rne s hbit hov]
    exact ⟨fun _ => rfl, fun h => absurd hbig (not_le.2 h)⟩
  · obtain ⟨p1, p2, p3, p4⟩ := packResult_value .rne s (e := (roundToNearestEven f).1)
      (q := (roundToNearestEven f).2) (by omega) (by omega) hq
    have hval : ((roundToNearestEven f).2.toNat : ℚ) * ulp (roundToNearestEven f).1 =
        (nearestCount f : ℚ) * ulp f.exp := by
      rcases hcount with ⟨h1, h2, h3⟩ | ⟨h1, h2, h3⟩
      · rw [h2, h3]
      · have := ulp_add f.exp 1
        push_cast at this
        rw [h2, h3, h1, this]
        push_cast
        ring
    have hsmall : w < overflowLimit := by
      rw [hlim]
      have hle := nearestCount_le f
      have h5 := (abs_le.1 hnear).1
      by_cases he : f.exp = 0x7FFE
      · have h1 : nearestCount f < 2 ^ 113 := by
          rcases hcount with ⟨h1, -, -⟩ | ⟨-, h2, -⟩
          · exact h1
          · omega
        rw [he] at h5 hnear htie hu
        rcases Nat.lt_or_ge (nearestCount f) (2 ^ 113 - 1) with h | h
        · have h6 : (nearestCount f : ℚ) ≤ ((2 ^ 113 - 2 : Nat) : ℚ) := by exact_mod_cast (by omega)
          have h11 := mul_le_mul_of_nonneg_right h6 hu.le
          push_cast [Nat.cast_sub] at h11
          norm_num at h11 ⊢
          linarith
        · have h7 : nearestCount f = 2 ^ 113 - 1 := by omega
          have h8 : ¬ |(nearestCount f : ℚ) * ulp 0x7FFE - w| = ulp 0x7FFE / 2 := fun h => by
            have := htie h
            omega
          have h9 := (abs_lt.1 (lt_of_le_of_ne hnear h8)).1
          have h10 : (nearestCount f : ℚ) = ((2 ^ 113 - 1 : Nat) : ℚ) := by exact_mod_cast h7
          rw [h10] at h9
          push_cast at h9
          norm_num at h9 ⊢
          linarith
      · have he' : f.exp ≤ 0x7FFD := by
          rcases hcount with ⟨-, h2, -⟩ | ⟨-, h2, -⟩ <;> omega
        have h4 : ulp f.exp ≤ ulp 0x7FFD := ulp_le he'
        have h6 := ulp_add 0x7FFD 1
        push_cast at h6
        norm_num at h6
        have h7 : (nearestCount f : ℚ) ≤ ((2 ^ 113 : Nat) : ℚ) := by exact_mod_cast hle
        push_cast at h7
        rw [h6]
        nlinarith
    refine ⟨fun h => absurd hsmall (not_lt.2 h), fun _ => ⟨p1, p2, fun y _ => ?_⟩⟩
    refine nearest_value s (e := f.exp) (n := nearestCount f) (by rw [p3, hval]) hnear
      (hlow.imp id And.right) (fun h => ?_) y
    have he := htie h
    rw [p4]
    rcases hcount with ⟨-, -, h3⟩ | ⟨-, -, h3⟩ <;> rw [h3]
    · simpa using by omega
    · decide

/-- The rounder's output under round-to-odd (R135): the retained integer, made odd when anything was discarded. -/
theorem roundToOdd_snd_toNat (f : Frame) :
    (roundToOdd f).2.toNat =
      if (guardBit f || tailBit f) = true then (retained f).toNat + (1 - (retained f).toNat % 2)
      else (retained f).toNat := by
  have h1 : (retained f).toNat ||| 1 = (retained f).toNat + (1 - (retained f).toNat % 2) := by
    rcases Nat.mod_two_eq_zero_or_one (retained f).toNat with h | h
    · have := Nat.two_pow_add_eq_or_of_lt (i := 1) (b := 1) (by decide) ((retained f).toNat / 2)
      have h2 : 2 ^ 1 * ((retained f).toNat / 2) = (retained f).toNat := by omega
      rw [h2] at this
      omega
    · have := Nat.two_pow_add_eq_or_of_lt (i := 1) (b := 1) (by decide) ((retained f).toNat / 2)
      have h2 : 2 ^ 1 * ((retained f).toNat / 2) + 1 = (retained f).toNat := by omega
      have h3 : (retained f).toNat ||| 1 = (retained f).toNat := by
        rw [h2] at this
        rw [this, Nat.or_assoc, Nat.or_self, ← this]
      rw [h3]
      omega
  cases h : (guardBit f || tailBit f) <;> simp [roundToOdd, h, BitVec.toNat_or, BitVec.ofBool, h1]

/-- What a frame holds, said of its retained integer: exactly that many units when nothing is discarded, else more than
that and less than one more (R134). -/
theorem retained_holds {f : Frame} {w : ℚ} (hn : Normalized f) (hh : Holds f w) :
    ((guardBit f || tailBit f) = false ∧ w = (retained f).toNat * ulp f.exp) ∨
    ((guardBit f || tailBit f) = true ∧ (retained f).toNat * ulp f.exp < w ∧
      w < ((retained f).toNat + 1) * ulp f.exp) := by
  have hu := ulp_pos f.exp
  have hg := guardBit_eq_half f
  have hl := hh.lower
  have hup := hh.upper
  have hex := hh.exact
  rw [retained_toNat_of_below hn.below]
  set h := f.m.toNat / 2 ^ 141
  by_cases hG : h % 2 = 1
  · have h2 : (h : ℚ) = 2 * ((h / 2 : Nat) : ℚ) + 1 := by
      have : h = 2 * (h / 2) + 1 := by omega
      exact_mod_cast this
    rw [h2] at hl hup
    right
    exact ⟨by simp [hg, hG], by nlinarith, by nlinarith⟩
  · have h2 : (h : ℚ) = 2 * ((h / 2 : Nat) : ℚ) := by
      have : h = 2 * (h / 2) := by omega
      exact_mod_cast this
    rw [h2] at hl hup hex
    cases hT : tailBit f
    · left
      have := hex.1 hT
      exact ⟨by simp [hg, hG], by linarith⟩
    · right
      have hne : 2 * w ≠ 2 * ((h / 2 : Nat) : ℚ) * ulp f.exp := fun he => by
        have := hex.2 he
        rw [hT] at this
        exact absurd this (by decide)
      have hlt := lt_of_le_of_ne hl (Ne.symm hne)
      exact ⟨by simp, by linarith, by linarith⟩

theorem signedMaxFin_bit0 (s : Bool) : (signedMaxFin s).getLsbD 0 = true := by
  cases s <;> decide

theorem packResult_maxFin (mode : Rounding) (s : Bool) :
    packResult mode s 0x7FFE (BitVec.allOnes 113) = signedMaxFin s := by
  cases mode <;> cases s <;> decide

/-- `MAX_FIN` has the value its name says (R59). -/
theorem value_signedMaxFin (s : Bool) : value (signedMaxFin s) = signFactor s * maxFinite := by
  obtain ⟨-, -, h, -⟩ := packResult_value .ro s (e := 0x7FFE) (q := BitVec.allOnes 113) (by norm_num) (by norm_num)
    (Or.inl (by decide))
  rw [packResult_maxFin] at h
  rw [h, maxFinite_eq, show (BitVec.allOnes 113).toNat = 2 ^ 113 - 1 by decide]
  norm_num

/-- No finite magnitude exceeds `MAX_FIN` (R59). -/
theorem abs_value_le_maxFinite {y : Float128} (h : isFinite y = true) : |value y| ≤ maxFinite := by
  have h1 := sigOf_lt y
  have h2 : expOf y ≤ 0x7FFE := expOf_lt_of_finite h
  have h3 : ((sigOf y).toNat : ℚ) ≤ 2 ^ 113 - 1 := by
    have : (sigOf y).toNat + 1 ≤ 2 ^ 113 := h1
    have : (((sigOf y).toNat + 1 : Nat) : ℚ) ≤ ((2 ^ 113 : Nat) : ℚ) := by exact_mod_cast this
    push_cast at this
    linarith
  have h4 := ulp_le h2
  have h5 := ulp_pos (expOf y)
  rw [abs_value, maxFinite_eq]
  exact mul_le_mul h3 h4 h5.le (by norm_num)

/-- The odd neighbour: `n` units, an odd number, next to a magnitude strictly between two whole numbers of units. -/
theorem odd_neighbour (s : Bool) {e : Int} {q n : Nat} {w : ℚ} {r : Float128}
    (hr : value r = signFactor s * (n * ulp e)) (hq : q * ulp e < w) (hq' : w < (q + 1) * ulp e)
    (hn : n = q ∨ n = q + 1) (hlow : e = 1 ∨ 2 ^ 112 ≤ q) (y : Float128) :
    value y ≠ signFactor s * w ∧
      ¬ (value r < value y ∧ value y < signFactor s * w) ∧
      ¬ (signFactor s * w < value y ∧ value y < value r) := by
  have hu := ulp_pos e
  -- the same, on the magnitude's side
  have key : ∀ z : ℚ, z = signFactor s * value y →
      z ≠ w ∧ ¬ (n * ulp e < z ∧ z < w) ∧ ¬ (w < z ∧ z < n * ulp e) := by
    intro z hz
    have hy : (∃ k : Int, z = k * ulp e) ∨ (e ≠ 1 ∧ z < 2 ^ 112 * ulp e) := by
      rcases value_spacing y e with ⟨k, hk⟩ | ⟨he, h⟩
      · left
        rw [hz, hk]
        cases s
        · exact ⟨k, by simp [signFactor]⟩
        · exact ⟨-k, by simp [signFactor]⟩
      · right
        refine ⟨he, lt_of_le_of_lt (le_abs_self z) ?_⟩
        rwa [hz, abs_mul, abs_signFactor, one_mul]
    rcases hy with ⟨k, rfl⟩ | ⟨he, hlt⟩
    · have hk : k ≤ q ∨ (q : Int) + 1 ≤ k := by omega
      have hc : (k : ℚ) ≤ q ∨ (q : ℚ) + 1 ≤ k := by
        rcases hk with h | h
        · left; exact_mod_cast h
        · right; exact_mod_cast h
      have hc' : (k : ℚ) * ulp e ≤ q * ulp e ∨ ((q : ℚ) + 1) * ulp e ≤ k * ulp e :=
        hc.imp (fun h => mul_le_mul_of_nonneg_right h hu.le) (fun h => mul_le_mul_of_nonneg_right h hu.le)
      have hn' : (n : ℚ) = q ∨ (n : ℚ) = q + 1 := by
        rcases hn with h | h
        · left; exact_mod_cast h
        · right; exact_mod_cast h
      refine ⟨fun h => ?_, fun h => ?_, fun h => ?_⟩
      · rcases hc' with h' | h' <;> linarith
      · rcases hn' with h1 | h1 <;> rw [h1] at h <;> rcases hc' with h' | h' <;> linarith [h.1, h.2]
      · rcases hn' with h1 | h1 <;> rw [h1] at h <;> rcases hc' with h' | h' <;> linarith [h.1, h.2]
    · have h1 := hlow.resolve_left he
      have h2 : (2 : ℚ) ^ 112 ≤ q := by exact_mod_cast h1
      have h3 : (2 : ℚ) ^ 112 ≤ n := by
        have : 2 ^ 112 ≤ n := by omega
        exact_mod_cast this
      have h2' := mul_le_mul_of_nonneg_right h2 hu.le
      have h3' := mul_le_mul_of_nonneg_right h3 hu.le
      exact ⟨fun h => by linarith, fun h => by linarith [h.1, h.2], fun h => by linarith [h.1, h.2]⟩
  obtain ⟨k1, k2, k3⟩ := key _ rfl
  rw [hr]
  cases s
  · simp only [signFactor, Bool.false_eq_true, if_false, one_mul] at *
    exact ⟨k1, k2, k3⟩
  · simp only [signFactor, if_true, neg_one_mul] at *
    refine ⟨fun h => k1 (by linarith), fun h => k3 ⟨by linarith [h.2], by linarith [h.1]⟩,
      fun h => k2 ⟨by linarith [h.2], by linarith [h.1]⟩⟩

/-- Round-to-odd and the packer, on a normalised frame that holds `w`, deliver `w` rounded to odd (R138). -/
theorem ro_of_holds {f : Frame} {w : ℚ} (s : Bool) (hn : Normalized f) (hh : Holds f w) (hw : 0 < w) :
    RoundsToOdd (signFactor s * w) (packResult .ro s (roundToOdd f).1 (roundToOdd f).2) := by
  have hu := ulp_pos f.exp
  have hpos := hn.exp_pos
  have hlow := normalized_low hn hh
  have hnat := roundToOdd_snd_toNat f
  have hlt := (roundToOdd f).2.isLt
  have hqlt := (retained f).isLt
  have hexp : (roundToOdd f).1 = f.exp := rfl
  rw [RoundsToOdd, abs_signFactor_mul s hw, decide_signFactor_mul_neg s hw, hexp]
  have hge : (retained f).toNat ≤ (roundToOdd f).2.toNat := by
    rw [hnat]
    split <;> omega
  by_cases hov : 0x7FFF ≤ f.exp
  · -- overflow
    obtain ⟨h1, h2⟩ := hlow.resolve_left (by omega)
    have hbit : (roundToOdd f).2.getLsbD 112 = true := by
      rw [bit112_eq]
      exact decide_eq_true (h1.trans hge)
    have hbig : maxFinite < w := by
      have h4 : ulp (0x7FFE + (1 : Nat)) ≤ ulp f.exp := ulp_le (by push_cast; omega)
      have h5 := ulp_pos 0x7FFE
      rw [ulp_add] at h4
      rw [maxFinite_eq]
      nlinarith
    have hcmp : ∀ y : Float128, isFinite y = true → |value y| < |signFactor s * w| := fun y hy => by
      rw [abs_signFactor_mul s hw]
      exact lt_of_le_of_lt (abs_value_le_maxFinite hy) hbig
    rw [packResult_overflow_ro s hbit hov]
    refine ⟨by cases s <;> decide, by cases s <;> decide, fun _ => rfl, ?_, fun _ =>
      ⟨signedMaxFin_bit0 s, fun y hy => ?_⟩⟩
    · rintro ⟨y, hy, h⟩
      exact absurd (hcmp y hy) (by rw [h]; exact lt_irrefl _)
    · have h6 := abs_le.1 (abs_value_le_maxFinite hy)
      rw [value_signedMaxFin]
      cases s
      · simp only [signFactor, Bool.false_eq_true, if_false, one_mul]
        exact ⟨fun h => by linarith [h.1], fun h => by linarith [h.1]⟩
      · simp only [signFactor, if_true, neg_one_mul]
        exact ⟨fun h => by linarith [h.2], fun h => by linarith [h.2]⟩
  · have hq : 2 ^ 112 ≤ (roundToOdd f).2.toNat ∨ f.exp = 1 := by
      rcases hlow with h | ⟨h, -⟩
      · exact Or.inr h
      · exact Or.inl (h.trans hge)
    obtain ⟨p1, p2, p3, p4⟩ := packResult_value .ro s (e := f.exp) (q := (roundToOdd f).2) hpos (by omega) hq
    have hmax : maxFinite < w → packResult .ro s f.exp (roundToOdd f).2 = signedMaxFin s := fun hm => by
      have hup : w < ((retained f).toNat + 1) * ulp f.exp := by
        rcases retained_holds hn hh with ⟨-, h⟩ | ⟨-, -, h⟩
        · rw [h]; nlinarith
        · exact h
      rw [maxFinite_eq] at hm
      have hq1 : ((retained f).toNat : ℚ) + 1 ≤ 2 ^ 113 := by exact_mod_cast hqlt
      have he : f.exp = 0x7FFE := by
        by_contra hne
        have h4 : ulp f.exp ≤ ulp 0x7FFD := ulp_le (by omega)
        have h6 := ulp_add 0x7FFD 1
        norm_num at h6
        rw [h6] at hm
        nlinarith
      rw [he] at hup hu
      have h7 : ((2 : ℚ) ^ 113 - 1) < (retained f).toNat + 1 := lt_of_mul_lt_mul_right (hm.trans hup) hu.le
      have h8 : (retained f).toNat = 2 ^ 113 - 1 := by
        have : (2 ^ 113 : ℚ) < ((retained f).toNat + 2 : Nat) := by push_cast; linarith
        have : 2 ^ 113 < (retained f).toNat + 2 := by exact_mod_cast this
        omega
      have h9 : (roundToOdd f).2 = BitVec.allOnes 113 := by
        apply BitVec.eq_of_toNat_eq
        rw [show (BitVec.allOnes 113).toNat = 2 ^ 113 - 1 by decide]
        omega
      rw [he, h9]
      exact packResult_maxFin .ro s
    refine ⟨p1, p2, hmax, ?_⟩
    rcases retained_holds hn hh with ⟨hgt, hx⟩ | ⟨hgt, h1, h2⟩
    · rw [hgt, if_neg (by decide)] at hnat
      have hv : value (packResult .ro s f.exp (roundToOdd f).2) = signFactor s * w := by rw [p3, hnat, hx]
      exact ⟨fun _ => hv, fun h => absurd hv (h _ p1)⟩
    · rw [hgt, if_pos rfl] at hnat
      have hodd : (roundToOdd f).2.toNat % 2 = 1 := by omega
      have hn' : (roundToOdd f).2.toNat = (retained f).toNat ∨
          (roundToOdd f).2.toNat = (retained f).toNat + 1 := by omega
      have hall := odd_neighbour s p3 h1 h2 hn' (hlow.imp id And.left)
      refine ⟨fun ⟨y, _, h⟩ => absurd h (hall y).1, fun _ => ⟨?_, fun y _ => (hall y).2⟩⟩
      rw [p4, hodd]
      rfl

/-- The policy's rounder and the packer, on a normalised frame that holds `w`, round `w` correctly (R138). -/
theorem rounds_of_holds {f : Frame} {w : ℚ} (mode : Rounding) (s : Bool) (hn : Normalized f) (hh : Holds f w)
    (hw : 0 < w) :
    Rounds mode (signFactor s * w) (packResult mode s (roundFrame mode f).1 (roundFrame mode f).2) := by
  cases mode
  · exact rne_of_holds s hn hh hw
  · exact ro_of_holds s hn hh hw

end Sys2Proof.Machine
end

