-- ==== Sys2Proof/Tests/Slice0.lean ====
section
/-!
SUPPORT. Tests of the model and witnesses of the statements' hypotheses. Expected results are rows of spec/95_test_vectors.md,
spec/96_unit_vectors.md and spec/97_family_vectors.md, or worked examples of the rules, as each test says.
-/

namespace Sys2Proof.Tests

open Sys2Proof.Machine

/-- A state with three operands on the ports. -/
def st (a b c : Float128) : State :=
  { op_i := 0#4, a_i := a, b_i := b, c_i := c, result_o := 0#128 }

/-- The answer of an instruction to three operands. -/
def run (i : Instr) (a b c : Float128) : Option Float128 :=
  outcomeResult (exec i (st a b c))

/-! Named patterns of spec/30_encoding.md R59 and spec/95_test_vectors.md. -/

def one : Float128 := 0x3FFF0000000000000000000000000000#128
def onePlusU : Float128 := 0x3FFF0000000000000000000000000001#128
def half : Float128 := 0x3FFE0000000000000000000000000000#128
def two : Float128 := 0x40000000000000000000000000000000#128
def three : Float128 := 0x40008000000000000000000000000000#128
def seven : Float128 := 0x4001C000000000000000000000000000#128
def minSub : Float128 := 0x00000000000000000000000000000001#128
def maxSub : Float128 := 0x0000FFFFFFFFFFFFFFFFFFFFFFFFFFFF#128
def minNorm : Float128 := 0x00010000000000000000000000000000#128
def maxFin : Float128 := 0x7FFEFFFFFFFFFFFFFFFFFFFFFFFFFFFF#128
def inf : Float128 := 0x7FFF0000000000000000000000000000#128
def negInf : Float128 := 0xFFFF0000000000000000000000000000#128
def zero : Float128 := 0x00000000000000000000000000000000#128
def negZero : Float128 := 0x80000000000000000000000000000000#128
def sNaNA : Float128 := 0x7FFF0000000000000000000000000001#128
def sNaNB : Float128 := 0xFFFF40000000000000000000000000B0#128
def qNaNC : Float128 := 0x7FFF800000000000000000000000C0DE#128

/-! ### Well-formedness: each ill-formed command word is refused (R63), each kind once -/

theorem test_wf_refuses_fn_6 : commandWellFormed 0b0110#4 = false := by decide
theorem test_wf_refuses_fn_7 : commandWellFormed 0b0111#4 = false := by decide
theorem test_wf_refuses_fn_6_ro : commandWellFormed 0b1110#4 = false := by decide
theorem test_wf_refuses_fn_7_ro : commandWellFormed 0b1111#4 = false := by decide
theorem test_wf_refuses_a_bit_above_the_port : wordWellFormed 0x10 = false := by decide
theorem test_wf_accepts_fn_5 : wordWellFormed 0xD = true := by decide

/-! ### Decoding: each word written out from the operation map of R60 -/

theorem test_decode_addq_rne : decode 0b0000#4 = .instr .addqRne := by decide
theorem test_decode_subq_rne : decode 0b0001#4 = .instr .subqRne := by decide
theorem test_decode_mulq_rne : decode 0b0010#4 = .instr .mulqRne := by decide
theorem test_decode_divq_rne : decode 0b0011#4 = .instr .divqRne := by decide
theorem test_decode_fmaq_rne : decode 0b0100#4 = .instr .fmaqRne := by decide
theorem test_decode_fmsq_rne : decode 0b0101#4 = .instr .fmsqRne := by decide
theorem test_decode_addq_ro : decode 0b1000#4 = .instr .addqRo := by decide
theorem test_decode_subq_ro : decode 0b1001#4 = .instr .subqRo := by decide
theorem test_decode_mulq_ro : decode 0b1010#4 = .instr .mulqRo := by decide
theorem test_decode_divq_ro : decode 0b1011#4 = .instr .divqRo := by decide
theorem test_decode_fmaq_ro : decode 0b1100#4 = .instr .fmaqRo := by decide
theorem test_decode_fmsq_ro : decode 0b1101#4 = .instr .fmsqRo := by decide
theorem test_decode_reserved_6 : decode 0b0110#4 = .reserved 0b0110#4 := by decide
theorem test_decode_reserved_f : decode 0b1111#4 = .reserved 0b1111#4 := by decide
theorem test_decodeTableWord_of_a_byte : decodeTableWord 8 0x0C = some .fmaqRo := by decide
theorem test_decodeTableWord_rejects : decodeTableWord 8 0x1C = none := by decide

/-! ### Sub-blocks -/

/-- R84's second worked example, and 96 U1 row 4. -/
theorem test_decompose_negative_subnormal :
    decompose 0x80000000000000000000000000000003#128 =
      { sign := true, exp := 1, sig := 3#113, cls := .subnormal } := by decide

/-- 96 U1 row 14. -/
theorem test_decompose_signaling :
    decompose sNaNB =
      { sign := true, exp := 32767, sig := 0x40000000000000000000000000B0#113, cls := .sNaN } := by decide

/-- R106's second example, 96 U2 row 14: the lost bit jams bit 0. -/
theorem test_align128_jams :
    align128 (laneOf (sigOf onePlusU)) 113 = 0x00000000000000000000000000002001#128 := by decide

/-- 96 U3 row 8, both forms of the multiplier. -/
theorem test_mul128_arbitrary :
    mul128 0x0123456789ABCDEFFEDCBA9876543210#128 0xFFFF0000FFFF0000FFFF0000FFFF0001#128 =
      0x0123444445678888765444443210000000000123444445678888765444443210#256 := by decide

/-- 96 U4 row 7: a digit step that needs two corrections. -/
theorem test_divider_two_corrections :
    div256by128 0x71B25C2B01AB37DC0C05C13275E3400000000000000000000000000000000000#256
        0x936F5FEC00004159FFFFFFFFC38C8000#128 =
      (0xC56B0D8C091CEF59C23BA8DADEE93F85#128, 0x08B40B7F6F6403BBFAFE3D1F54818000#128) := by decide

/-- 96 U4, second table, row 1: the saturated estimate. -/
theorem test_digit_saturated :
    divDigitGeneral 0x800000000000000000000000000000000000000000000000#192
        0x8000000000000000FFFFFFFFFFFFFFFF#128 =
      (0xFFFFFFFFFFFFFFFE#64, 0x0000000000000002FFFFFFFFFFFFFFFE#128) := by decide

/-- 96 U5 row 18: tiny exponent, negative, both policies. -/
theorem test_normRoundPack_tiny :
    normRoundPack .rne true (-113) (1#256 <<< 254) false = negZero ∧
    normRoundPack .ro true (-113) (1#256 <<< 254) false = 0x80000000000000000000000000000001#128 := by
  decide

/-- 96 U5 row 21: the carry step loses a 1 bit into the sticky. -/
theorem test_normRoundPack_carry_sticky :
    normRoundPack .ro false 16382 ((1#256 <<< 255) ||| 1#256) false = onePlusU := by decide

/-! ### Instructions: at most two each -/

/-- 97 L2.1 ADDQ row 7: a tie on an odd significand rounds up into the next binade. -/
theorem test_addq_rne_tie_odd :
    run .addqRne 0x3FFFFFFFFFFFFFFFFFFFFFFFFFFFFFFF#128 0x3F8E0000000000000000000000000000#128 zero =
      some two := by decide
/-- 97 L2.1 ADDQ row 27: overflow by rounding. -/
theorem test_addq_rne_overflow :
    run .addqRne maxFin 0x7F8D0000000000000000000000000000#128 zero = some inf := by decide
/-- 97 L2.1 ADDQ row 15: sticky only, subtracting. -/
theorem test_addq_ro_sticky_only :
    run .addqRo one 0x80000000000000000000000000000001#128 zero =
      some 0x3FFEFFFFFFFFFFFFFFFFFFFFFFFFFFFF#128 := by decide
/-- 97 L2.1 ADDQ row 26: overflow clamps. -/
theorem test_addq_ro_overflow_clamps :
    run .addqRo (negate maxFin) (negate maxFin) zero = some (negate maxFin) := by decide
/-- 97 L2.1 SUBQ row 11: the second operand leads. -/
theorem test_subq_rne_swaps :
    run .subqRne minSub maxSub zero = some 0x8000FFFFFFFFFFFFFFFFFFFFFFFFFFFE#128 := by decide
/-- 95 L1.4 row 9: a NaN subtrahend is not negated. -/
theorem test_subq_rne_nan_keeps_its_sign :
    run .subqRne one sNaNB zero = some 0xFFFFC0000000000000000000000000B0#128 := by decide
/-- 97 L2.1 SUBQ row 4, the example of R176. -/
theorem test_subq_ro_below_one :
    run .subqRo one minSub zero = some 0x3FFEFFFFFFFFFFFFFFFFFFFFFFFFFFFF#128 := by decide
/-- 95 L1.3 row 8: (-0) - (+0) = -0. -/
theorem test_subq_ro_negative_zero : run .subqRo negZero zero zero = some negZero := by decide
/-- 97 L2.2 row 19: rounds up to the least normal. -/
theorem test_mulq_rne_up_to_normal : run .mulqRne maxSub onePlusU zero = some minNorm := by decide
/-- 97 L2.2 row 8: half the least subnormal, tie to even. -/
theorem test_mulq_rne_tie_to_zero : run .mulqRne minSub half zero = some zero := by decide
/-- 97 L2.2 row 5, the example of R192. -/
theorem test_mulq_ro_forced_odd :
    run .mulqRo onePlusU onePlusU zero = some 0x3FFF0000000000000000000000000003#128 := by decide
/-- 97 L2.2 row 14: a nonzero product never becomes zero. -/
theorem test_mulq_ro_never_zero :
    run .mulqRo (negate minSub) minSub zero = some (negate minSub) := by decide
/-- 97 L2.3 row 14: general path. -/
theorem test_divq_rne_general_path :
    run .divqRne one 0x3FFF0000000000008000000000000000#128 zero =
      some 0x3FFEFFFFFFFFFFFF0000000000008000#128 := by decide
/-- 97 L2.3 row 17: two subnormals. -/
theorem test_divq_rne_subnormals :
    run .divqRne maxSub minSub zero = some 0x406EFFFFFFFFFFFFFFFFFFFFFFFFFFFE#128 := by decide
/-- 97 L2.3 row 4, the example of R203. -/
theorem test_divq_ro_one_seventh :
    run .divqRo one 0x4001C000000000000000000000000000#128 zero =
      some 0x3FFC2492492492492492492492492493#128 := by decide
/-- 95 L1.5 row 25: a division by zero is an infinity in this policy too. -/
theorem test_divq_ro_by_zero : run .divqRo one negZero zero = some negInf := by decide
/-- 97 L2.4 FMAQ row 2: the single rounding. -/
theorem test_fmaq_rne_single_rounding :
    run .fmaqRne onePlusU onePlusU 0xBFFF0000000000000000000000000002#128 =
      some 0x3F1F0000000000000000000000000000#128 := by decide
/-- 97 L2.4 FMAQ row 11: the product alone overflows. -/
theorem test_fmaq_rne_product_overflows : run .fmaqRne maxFin two (negate maxFin) = some maxFin := by
  decide
/-- 97 L2.4 FMAQ row 24: jam, then renormalise by 1. -/
theorem test_fmaq_ro_jam :
    run .fmaqRo 0x3F370000000000000000000000000001#128 onePlusU (negate one) =
      some 0xBFFEFFFFFFFFFFFFFFFFFFFFFFFFFFFF#128 := by decide
/-- 95 L1.4 row 25: the invalid product comes before a NaN addend. -/
theorem test_fmaq_ro_invalid_before_nan : run .fmaqRo inf zero qNaNC = some defaultQNaN := by decide
/-- 97 L2.4 FMSQ row 5: (-0) * 3 - (+0) = -0. -/
theorem test_fmsq_rne_negative_zero : run .fmsqRne negZero three zero = some negZero := by decide
/-- 97 L2.4 FMSQ row 13: a NaN addend is not negated. -/
theorem test_fmsq_rne_nan_not_negated : run .fmsqRne one one sNaNB = some (quiet sNaNB) := by decide
/-- The example of R216: exact cancellation. -/
theorem test_fmsq_ro_cancels :
    run .fmsqRo two three 0x40018000000000000000000000000000#128 = some zero := by decide
/-- 97 L2.4 FMSQ row 12. -/
theorem test_fmsq_ro_below_one :
    run .fmsqRo minSub minSub one = some 0xBFFEFFFFFFFFFFFFFFFFFFFFFFFFFFFF#128 := by decide

/-! ### Witnesses: states and operands that meet the hypotheses of each statement, at boundary values of each clause -/

theorem witness_step_runs : decode State.reset.op_i = .instr .addqRne ∧
    decodeTableWord 4 0xD = some .fmsqRo ∧ decodeTableWord 8 0x5 = some .fmsqRne := by decide

theorem witness_reserved : ∀ op ∈ [0x6#4, 0x7#4, 0xE#4, 0xF#4],
    6 ≤ (({ st one one one with op_i := op }).op_i.extractLsb' 0 3).toNat := by decide

theorem witness_command_well_formed :
    commandWellFormed (st one one one).op_i = true ∧
    commandWellFormed ({ st one one one with op_i := 0xD#4 }).op_i = true := by decide

theorem witness_two_operand : Instr.divqRo.fn.fused = false := by decide

theorem witness_step_answers : ∃ t, step (st one two zero) = .next t := ⟨_, rfl⟩

/-- 1 + 2 = 3 on the ports with its answer. -/
theorem witness_inv : Inv ((st one two zero).respond three) ∧
    ∃ t, step (((st one two zero).respond three).load { op := 0xB#4, a := one, b := zero, c := two }) =
      .next t :=
  ⟨⟨by show answer _ = some _; decide, by decide⟩, ⟨_, rfl⟩⟩

theorem witness_finite_magnitudes : isFinite minSub = true ∧ isFinite maxFin = true ∧ isZero minSub = false := by
  decide

theorem witness_jam : (6#128).toNat % 2 ^ 1 = 0 ∧ (6#128).toNat % 2 ^ 2 ≠ 0 ∧ 2 % 2 = 0 := by decide

/-- The digit step at its least divisor and at the saturated estimate. -/
theorem witness_digit_step :
    (2 ^ 127 ≤ (0x80000000000000000000000000000000#128).toNat ∧
      (0#192).toNat / 2 ^ 64 < (0x80000000000000000000000000000000#128).toNat ∧
      (0x80000000000000000000000000000000#128).toNat % 2 ^ 64 = 0) ∧
    (2 ^ 127 ≤ (0x8000000000000000FFFFFFFFFFFFFFFF#128).toNat ∧
      (0x800000000000000000000000000000000000000000000000#192).toNat / 2 ^ 64 <
        (0x8000000000000000FFFFFFFFFFFFFFFF#128).toNat) := by decide

theorem witness_divider :
    (0xC0000000000000000000000000000000#128).getLsbD 127 = true ∧
    (1#256 <<< 254).toNat / 2 ^ 128 < (0xC0000000000000000000000000000000#128).toNat := by decide

theorem witness_normalize :
    (1#256 <<< 254) ≠ 0#256 ∧
    (normalize { exp := 0, m := 1#256 <<< 254, sticky := false }).sticky = false := by decide

theorem witness_round :
    ((1#256 <<< 254).toNat < 2 ^ 255 ∧ (1#256 <<< 254).toNat % 2 ^ 142 = 0) ∧
    ((BitVec.allOnes 256 >>> 1).toNat < 2 ^ 255 ∧ (BitVec.allOnes 256 >>> 1).toNat % 2 ^ 142 ≠ 0 ∧
      (BitVec.allOnes 256 >>> 1) ≠ 0#256) := by decide

theorem witness_pack_result :
    (BitVec.ofNat 113 (2 ^ 112 - 1)).toNat < 2 ^ 112 ∧
    (2 ^ 112 ≤ (BitVec.ofNat 113 (2 ^ 112)).toNat ∧ (0x7FFF : Int) ≤ 0x7FFF) ∧
    (2 ^ 112 ≤ (BitVec.ofNat 113 (2 ^ 112)).toNat ∧ (1 : Int) ≤ 1 ∧ (0x7FFE : Int) < 0x7FFF) := by decide

theorem witness_norm_round_pack : (1#256) ≠ 0#256 := by decide

/-- The least subnormal on every port, and the largest finite number. -/
theorem witness_add :
    (isFinite (st minSub minSub minSub).a_i = true ∧ isFinite (st minSub minSub minSub).b_i = true ∧
      value (st minSub minSub minSub).a_i + value (st minSub minSub minSub).b_i ≠ 0) ∧
    (isFinite (st maxFin maxFin zero).a_i = true ∧
      value (st maxFin maxFin zero).a_i + value (st maxFin maxFin zero).b_i ≠ 0) := by
  have h1 : 0 < value minSub := value_pos (by decide) (by decide)
  have h2 : 0 < value maxFin := value_pos (by decide) (by decide)
  exact ⟨⟨by decide, by decide, by simp only [st]; linarith⟩, ⟨by decide, by simp only [st]; linarith⟩⟩

theorem witness_subtract :
    isFinite (st minSub (negate minSub) zero).a_i = true ∧
    isFinite (st minSub (negate minSub) zero).b_i = true ∧
    value (st minSub (negate minSub) zero).a_i - value (st minSub (negate minSub) zero).b_i ≠ 0 := by
  have h1 : 0 < value minSub := value_pos (by decide) (by decide)
  exact ⟨by decide, by decide, by simp only [st, value_negate]; linarith⟩

/-- Two zeros of each pair of signs, and an exact cancellation. -/
theorem witness_exact_zero_sum :
    value (st negZero negZero zero).a_i + value (st negZero negZero zero).b_i = 0 ∧
    value (st zero negZero zero).a_i + value (st zero negZero zero).b_i = 0 ∧
    value (st maxFin (negate maxFin) zero).a_i + value (st maxFin (negate maxFin) zero).b_i = 0 ∧
    value (st negZero zero zero).a_i - value (st negZero zero zero).b_i = 0 ∧
    value (st three three zero).a_i - value (st three three zero).b_i = 0 := by
  have h1 : value zero = 0 := value_of_zero (by decide)
  have h2 : value negZero = 0 := value_of_zero (by decide)
  simp [st, h1, h2]

theorem witness_nonzero_finite :
    isNonzeroFinite (st minSub maxFin zero).a_i = true ∧
    isNonzeroFinite (st minSub maxFin zero).b_i = true := by decide

theorem witness_fused :
    value (st minSub minSub minSub).a_i * value (st minSub minSub minSub).b_i +
      value (st minSub minSub minSub).c_i ≠ 0 ∧
    value (st zero one minSub).a_i * value (st zero one minSub).b_i - value (st zero one minSub).c_i ≠ 0 := by
  have h1 : 0 < value minSub := value_pos (by decide) (by decide)
  have h0 : value zero = 0 := value_of_zero (by decide)
  refine ⟨?_, ?_⟩
  · simp only [st]
    nlinarith
  · simp only [st, h0]
    linarith

theorem witness_fused_zero :
    value (st negZero three negZero).a_i * value (st negZero three negZero).b_i +
      value (st negZero three negZero).c_i = 0 ∧
    value (st one three three).a_i * value (st one three three).b_i - value (st one three three).c_i = 0 := by
  have h1 : value negZero = 0 := value_of_zero (by decide)
  have h2 : value one = 1 := by
    have hs : (sigOf one).toNat = 2 ^ 112 := by decide
    have he : expOf one = 16383 := by decide
    have hn : signOf one = false := by decide
    rw [value, hs, he, hn, signFactor]
    norm_num
  simp [st, h1, h2]

theorem witness_subnormal_sum :
    expOf (st minSub minSub zero).a_i = 1 ∧ bexpOf (st minSub minSub zero).a_i = 0#15 ∧
    expOf (st maxSub zero zero).b_i = 1 ∧
    (expOf (st minNorm (negate minSub) zero).a_i = 1 ∧
      expOf (st minNorm (negate minSub) zero).b_i = 1 ∧
      signOf (st minNorm (negate minSub) zero).a_i ≠ signOf (st minNorm (negate minSub) zero).b_i) := by decide

/-- The pair of exponent 1 whose sum is not exact: both policies, 2^113 + 1 units. -/
theorem witness_inexact_sum_at_exponent_one :
    expOf (st 0x00010000000000000000000000000001#128 minNorm zero).a_i = 1 ∧ expOf minNorm = 1 ∧
    run .addqRne 0x00010000000000000000000000000001#128 minNorm zero = some 0x00020000000000000000000000000000#128 ∧
    run .addqRo 0x00010000000000000000000000000001#128 minNorm zero =
      some 0x00020000000000000000000000000001#128 := by decide

theorem witness_alignment : 14 ≤ 14 ∧ 128 ≤ 128 := by decide

theorem witness_nan_priority :
    isNaN (st sNaNA qNaNC zero).a_i = true ∧
    (isNaN (st one sNaNB qNaNC).a_i = false ∧ isNaN (st one sNaNB qNaNC).b_i = true) ∧
    (Instr.fmsqRo.fn.fused = true ∧ isNaN (st inf one sNaNB).a_i = false ∧
      isNaN (st inf one sNaNB).b_i = false ∧
      invalidProduct (st inf one sNaNB).a_i (st inf one sNaNB).b_i = false ∧
      isNaN (st inf one sNaNB).c_i = true) := by decide

theorem witness_quiet : isNaN sNaNA = true ∧ cls qNaNC = .qNaN := by decide

theorem witness_infinite_sums :
    (isInf inf = true ∧ isInf inf = true ∧ signOf inf = signOf inf) ∧
    (isInf inf = true ∧ isInf negInf = true ∧ signOf inf ≠ signOf negInf) ∧
    (signOf inf = signOf (negate negInf) ∧ signOf inf ≠ signOf (negate inf)) ∧
    (isNaN sNaNA = true ∧ isNaN maxFin = false ∧ isNaN sNaNB = true) ∧
    (isInf inf = true ∧ isFinite maxFin = true) := by decide

theorem witness_infinities_and_zeros :
    isInf negInf = true ∧ isZero negZero = true ∧ isZero minSub = false ∧ isInf maxFin = false ∧
    isZero inf = false ∧ isFinite zero = true ∧ isNonzeroFinite minSub = true ∧ isNaN zero = false ∧
    isNaN inf = false ∧ isNaN sNaNA = true ∧ isNaN minSub = false := by decide

theorem witness_fused_specials :
    invalidProduct inf zero = true ∧
    (invalidProduct inf one = false ∧ isNaN inf = false ∧ signOf negInf ≠ (signOf inf ^^ signOf one)) ∧
    (signOf inf = (signOf inf ^^ signOf one) ∧ isInf one = false) ∧
    (isInf one = false ∧ isInf negInf = true ∧ invalidProduct one one = false) ∧
    (isZero zero = true ∧ isInf zero = false ∧ isNonzeroFinite minSub = true ∧
      invalidProduct zero one = false) := by decide

theorem witness_result_is_nan : ∃ t, exec .divqRne (st zero zero zero) = .next t := ⟨_, rfl⟩

theorem witness_ro_finite :
    Instr.fmaqRo.mode = .ro ∧ Instr.divqRo.mode = .ro ∧ isFinite maxFin = true ∧ isFinite minSub = true ∧
    isZero minSub = false := by decide

theorem witness_special_results :
    isFinite (st inf one one).a_i = false ∧ isFinite (st one sNaNA one).b_i = false ∧
    (Fn.fms.fused = true ∧ isFinite (st one one inf).c_i = false) ∧ isZero (st zero one one).a_i = true := by
  decide

theorem witness_no_nan_and_nan :
    isNaN (st one inf inf).b_i = false ∧ isNaN (st one sNaNB sNaNB).b_i = true ∧
    isNaN (st one inf inf).c_i = false ∧ isNaN (st one sNaNB sNaNB).c_i = true := by decide

theorem witness_exchange :
    isNaN inf = false ∧ (isFinite zero = true ∧ isFinite negZero = true ∧ zero ≠ negZero) ∧
    (isFinite minSub = true ∧ (st minSub minSub zero).a_i = (st minSub minSub zero).b_i) := by decide

theorem witness_zero_addend :
    isNonzeroFinite (st minSub maxFin negZero).a_i = true ∧
    isNonzeroFinite (st minSub maxFin negZero).b_i = true ∧ isZero (st minSub maxFin negZero).c_i = true := by
  decide

theorem witness_identities :
    isFinite (st minSub negZero zero).a_i = true ∧ isZero (st minSub negZero zero).a_i = false ∧
    isZero (st minSub negZero zero).b_i = true ∧
    (st maxFin one zero).b_i = pack false 0x3FFF#15 0#112 ∧
    (st maxSub maxSub zero).b_i = (st maxSub maxSub zero).a_i := by decide

/-- A wrapper of latency 1 over two cycles: idle, then the answer. -/
theorem witness_wrapper :
    (wrapperRun (wrapperReset 1)
      [{ rst_n := true, valid_i := true, op_i := 0#4, a_i := one, b_i := two, c_i := zero },
       { rst_n := true, valid_i := false, op_i := 0#4, a_i := one, b_i := two, c_i := zero }])[1]? =
      some { valid_o := true, result_o := three } ∧
    (((wrapperRun (wrapperReset 1)
      [{ rst_n := true, valid_i := true, op_i := 0#4, a_i := one, b_i := two, c_i := zero }])[0]?).map
        WrapperOut.valid_o) = some false := by decide

/-- One input of the wrapper: a request (1, 2) to ADDQ.RNE, with the two control inputs as given. -/
def wrapIn (rst valid : Bool) : WrapperIn :=
  { rst_n := rst, valid_i := valid, op_i := 0#4, a_i := one, b_i := two, c_i := zero }

/-- A wrapper of latency 1 with a reset in the run: the request of cycle 0 and the one presented under reset in cycle 1 are
dropped (R251), the request of cycle 2 is answered in cycle 3. -/
theorem witness_wrapper_reset :
    (wrapperRun (wrapperReset 1)
      [wrapIn true true, wrapIn false true, wrapIn true true, wrapIn true false]).map WrapperOut.valid_o =
      [false, false, false, true] ∧
    (wrapperRun (wrapperReset 1)
      [wrapIn true true, wrapIn false true, wrapIn true true, wrapIn true false])[3]? =
      some { valid_o := true, result_o := three } := by decide

end Sys2Proof.Tests
end

section
/-!
PROOFS. The classifier and the packer (spec/40_decompose_classify.md R81, R89): the class of a pattern is the interval its
127 bits under the sign lie in, and packing lays the three fields side by side.
-/

namespace Sys2Proof.Machine

/-- The 127 bits under the sign are the exponent field over the fraction (R55). -/
theorem magnitude_eq_fields (x : Float128) :
    x.toNat % 2 ^ 127 = (bexpOf x).toNat * 2 ^ 112 + (fracOf x).toNat := by
  rw [bexpOf_toNat, fracOf_toNat]
  omega

/-- The top bit of the fraction, which tells the NaNs apart (R81), is set in the upper half of the fractions. -/
theorem fracOf_getLsbD_111 (x : Float128) :
    (fracOf x).getLsbD 111 = decide (2 ^ 111 ≤ (fracOf x).toNat) := by
  rw [← BitVec.msb_eq_getLsbD_last (x := fracOf x), BitVec.msb_eq_decide]

/-- R81 as a chain of thresholds on bits 126:0, from zero up to the quiet NaNs. -/
def clsOfMagnitude (m : Nat) : Cls :=
  if m = 0 then .zero
  else if m < 2 ^ 112 then .subnormal
  else if m < 0x7FFF * 2 ^ 112 then .normal
  else if m = 0x7FFF * 2 ^ 112 then .infinity
  else if m < 0x7FFF * 2 ^ 112 + 2 ^ 111 then .sNaN
  else .qNaN

/-- An exponent field of 0: the magnitude is the fraction, below every other threshold. -/
theorem clsOfMagnitude_of_exponent_zero {f : Nat} (hf : f < 2 ^ 112) :
    clsOfMagnitude f = if f = 0 then .zero else .subnormal := by
  simp only [clsOfMagnitude, hf, if_true]

/-- An exponent field strictly between the two special ones. -/
theorem clsOfMagnitude_of_exponent_inner {e f : Nat} (h0 : e ≠ 0) (hF : e < 0x7FFF) (hf : f < 2 ^ 112) :
    clsOfMagnitude (e * 2 ^ 112 + f) = .normal := by
  have hpos : e * 2 ^ 112 + f ≠ 0 := by omega
  have hlow : ¬ e * 2 ^ 112 + f < 2 ^ 112 := by omega
  have hhigh : e * 2 ^ 112 + f < 0x7FFF * 2 ^ 112 := by omega
  rw [clsOfMagnitude, if_neg hpos, if_neg hlow, if_pos hhigh]

/-- The special exponent field 0x7FFF: the fraction tells infinity and the two NaNs apart. -/
theorem clsOfMagnitude_of_exponent_special (f : Nat) :
    clsOfMagnitude (0x7FFF * 2 ^ 112 + f) =
      if f = 0 then .infinity else if f < 2 ^ 111 then .sNaN else .qNaN := by
  have hpos : 0x7FFF * 2 ^ 112 + f ≠ 0 := by omega
  have hlow : ¬ 0x7FFF * 2 ^ 112 + f < 2 ^ 112 := by omega
  have hhigh : ¬ 0x7FFF * 2 ^ 112 + f < 0x7FFF * 2 ^ 112 := by omega
  rw [clsOfMagnitude, if_neg hpos, if_neg hlow, if_neg hhigh]
  simp only [Nat.add_eq_left, Nat.add_lt_add_iff_left]

/-- The classifier reads bits 126:0 only, by thresholds: the sign plays no part (R81). -/
theorem cls_eq_clsOfMagnitude (x : Float128) : cls x = clsOfMagnitude (x.toNat % 2 ^ 127) := by
  have he := (bexpOf x).isLt
  have hf := (fracOf x).isLt
  have hq : (fracOf x).toNat < 2 ^ 111 ↔ ¬ (fracOf x).getLsbD 111 = true := by
    rw [fracOf_getLsbD_111, decide_eq_true_iff, not_le]
  have hz : (fracOf x).toNat = 0 ↔ fracOf x = 0#112 := BitVec.toNat_inj (y := 0#112)
  rw [magnitude_eq_fields]
  by_cases h0 : bexpOf x = 0#15
  · simp only [h0, BitVec.toNat_ofNat, Nat.zero_mod, Nat.zero_mul, Nat.zero_add,
      clsOfMagnitude_of_exponent_zero hf, hz, cls, if_true]
  by_cases hF : bexpOf x = 0x7FFF#15
  · have heF : (bexpOf x).toNat = 0x7FFF := by rw [hF]; rfl
    rw [heF, clsOfMagnitude_of_exponent_special, cls, if_neg h0, if_pos hF]
    simp only [hz, hq, ite_not]
  · have he0 := toNat_pos_of_ne_zero h0
    have heF : (bexpOf x).toNat ≠ 0x7FFF := fun h => hF (BitVec.eq_of_toNat_eq h)
    rw [(cls_normal_iff x).2 ⟨h0, hF⟩, clsOfMagnitude_of_exponent_inner he0.ne' (by omega) hf]

/-- Settles O11: by the thresholds of `clsOfMagnitude`, one case for each of the six intervals. -/
theorem classesPartitionThePatterns : Obligations.ClassesPartitionThePatterns := by
  intro x
  rw [cls_eq_clsOfMagnitude, clsOfMagnitude]
  split_ifs <;> simp only [true_iff, false_iff] <;> omega

/-- Packing the three fields of a pattern gives the pattern back (R89): both are the same number. -/
@[simp] theorem pack_fields (x : Float128) : pack (signOf x) (bexpOf x) (fracOf x) = x := by
  apply BitVec.eq_of_toNat_eq
  rw [pack_toNat, ← toNat_eq_fields]

/-- Settles O12: the fields of a packed pattern are those packed, and they determine the pattern. -/
theorem packingInvertsFieldExtraction : Obligations.PackingInvertsFieldExtraction :=
  ⟨pack_fields, fun s e f => ⟨pack_toNat s e f, signOf_pack s e f, bexpOf_pack s e f, fracOf_pack s e f⟩⟩

end Sys2Proof.Machine
end

section
/-!
PROOFS. The divider (spec/41_datapath_units.md R110 to R113): each digit step, on either path, is a floor division of its
partial dividend, and two of them in sequence are long division in base 2^64.
-/

namespace Sys2Proof.Machine

/-- The upper vector of a concatenation counts in units of the width of the lower one. -/
theorem append_toNat {n m : Nat} (x : BitVec n) (y : BitVec m) :
    (x ++ y).toNat = x.toNat * 2 ^ m + y.toNat := by
  rw [BitVec.toNat_append, ← Nat.shiftLeft_add_eq_or_of_lt y.isLt, Nat.shiftLeft_eq]

/-- The high digit of a divisor (R111's `d1`). -/
theorem divisorHigh_toNat (d : U128) : (d.extractLsb' 64 64).toNat = d.toNat / 2 ^ 64 := by
  have hd := d.isLt
  simp only [BitVec.extractLsb'_toNat, Nat.shiftRight_eq_div_pow]
  omega

/-- The low digit of a divisor (R111's `d0`). -/
theorem divisorLow_toNat (d : U128) : (d.extractLsb' 0 64).toNat = d.toNat % 2 ^ 64 := by
  simp [BitVec.extractLsb'_toNat]

/-- The two upper digits of a partial dividend, bits 191:64 (R111). -/
theorem partialHigh_toNat (u : BitVec 192) : (u.extractLsb' 64 128).toNat = u.toNat / 2 ^ 64 := by
  have hu := u.isLt
  simp only [BitVec.extractLsb'_toNat, Nat.shiftRight_eq_div_pow]
  omega

/-- The top digit of a partial dividend, bits 191:128 (R111). -/
theorem partialTop_toNat (u : BitVec 192) :
    (u.extractLsb' 128 64).toNat = u.toNat / 2 ^ 64 / 2 ^ 64 := by
  have hu := u.isLt
  simp only [BitVec.extractLsb'_toNat, Nat.shiftRight_eq_div_pow]
  omega

/-! ### The general digit step (R111) -/

section Estimate

variable {u : BitVec 192} {d : U128} (hd : 2 ^ 127 ≤ d.toNat)
include hd

/-- The estimate is the quotient by the divisor's high digit, cut off at the largest digit. -/
theorem estimateDigit_toNat :
    (estimateDigit u d).toNat = min (2 ^ 64 - 1) (u.toNat / 2 ^ 64 / (d.toNat / 2 ^ 64)) := by
  have hpos : 0 < d.toNat / 2 ^ 64 := by omega
  unfold estimateDigit
  split_ifs with hsat
  · rw [BitVec.le_def, divisorHigh_toNat, partialTop_toNat] at hsat
    have hfull : 2 ^ 64 ≤ u.toNat / 2 ^ 64 / (d.toNat / 2 ^ 64) := by
      rw [Nat.le_div_iff_mul_le hpos]
      omega
    rw [BitVec.toNat_allOnes, min_eq_left (by omega)]
  · rw [BitVec.le_def, divisorHigh_toNat, partialTop_toNat, not_le] at hsat
    have hq := (narrowDiv (u.extractLsb' 64 128) (d.extractLsb' 64 64)).1.isLt
    have hnarrow := narrowDiv_fst_toNat (n := u.extractLsb' 64 128) (d := d.extractLsb' 64 64)
      (by rwa [partialHigh_toNat, divisorHigh_toNat])
    rw [partialHigh_toNat, divisorHigh_toNat] at hnarrow
    omega

/-- The estimate is too large by at most 2: the partial dividend falls short by at most two divisors. -/
theorem estimateDigit_mul_le : (estimateDigit u d).toNat * d.toNat ≤ u.toNat + 2 * d.toNat := by
  have hq := estimateDigit_toNat (u := u) hd
  generalize (estimateDigit u d).toNat = q at hq ⊢
  have hq64 : q < 2 ^ 64 := by omega
  have hhigh : q * (d.toNat / 2 ^ 64) ≤ u.toNat / 2 ^ 64 := by
    rw [← Nat.le_div_iff_mul_le (by omega)]
    omega
  have hlow : q * (d.toNat % 2 ^ 64) ≤ q * 2 ^ 64 :=
    Nat.mul_le_mul_left q (Nat.mod_lt _ (by norm_num)).le
  calc q * d.toNat
      = q * (d.toNat / 2 ^ 64) * 2 ^ 64 + q * (d.toNat % 2 ^ 64) := by
        rw [mul_assoc, ← mul_add, Nat.div_add_mod']
    _ ≤ u.toNat / 2 ^ 64 * 2 ^ 64 + q * 2 ^ 64 := Nat.add_le_add (Nat.mul_le_mul_right _ hhigh) hlow
    _ ≤ u.toNat + 2 * d.toNat := by omega

/-- The estimate is never too small: what it leaves is less than one divisor. -/
theorem lt_estimateDigit_succ_mul (hu : u.toNat / 2 ^ 64 < d.toNat) :
    u.toNat < ((estimateDigit u d).toNat + 1) * d.toNat := by
  have hq := estimateDigit_toNat (u := u) hd
  have hdigit : u.toNat / d.toNat ≤ 2 ^ 64 - 1 := by
    rw [← Nat.lt_succ_iff, Nat.div_lt_iff_lt_mul (by omega)]
    omega
  have hhigh : u.toNat / d.toNat ≤ u.toNat / 2 ^ 64 / (d.toNat / 2 ^ 64) := by
    rw [Nat.div_div_eq_div_mul]
    exact Nat.div_le_div_left (Nat.mul_div_le _ _) (by omega)
  have hle : u.toNat / d.toNat ≤ (estimateDigit u d).toNat := hq ▸ le_min hdigit hhigh
  rw [← Nat.div_lt_iff_lt_mul (by omega)]
  omega

end Estimate

/-- The correction loop, allowed `k` rounds: from a remainder at most `k` divisors below 0 it reaches a remainder in range,
and digit times divisor plus remainder stays what it was. -/
theorem correctDigit_spec {d : U128} (k : Nat) (q : U64) (t : Int)
    (hsum : 0 ≤ (q.toNat : Int) * d.toNat + t) (hlow : -((k : Int) * d.toNat) ≤ t) (hhigh : t < d.toNat) :
    0 ≤ (correctDigit d k (q, t)).2 ∧ (correctDigit d k (q, t)).2 < d.toNat ∧
    ((correctDigit d k (q, t)).1.toNat : Int) * d.toNat + (correctDigit d k (q, t)).2 =
      (q.toNat : Int) * d.toNat + t := by
  induction k generalizing q t with
  | zero => exact ⟨by simpa [correctDigit] using hlow, hhigh, rfl⟩
  | succ k ih =>
    by_cases ht : t < 0
    · have hq : 0 < q.toNat := by
        by_contra h0
        simp [Nat.eq_zero_of_not_pos h0, not_le.2 ht] at hsum
      have hpred : ((q - 1#64).toNat : Int) = q.toNat - 1 := by
        have := q.isLt
        simp only [BitVec.toNat_sub, BitVec.toNat_ofNat]
        omega
      have hkeep : ((q - 1#64).toNat : Int) * d.toNat + (t + d.toNat) = (q.toNat : Int) * d.toNat + t := by
        rw [hpred]
        ring
      have hlow' : -((k : Int) * d.toNat) ≤ t + d.toNat := by
        push_cast at hlow
        linarith
      simpa only [correctDigit, if_pos ht, hkeep] using
        ih (q - 1#64) (t + d.toNat) (hkeep ▸ hsum) hlow' (by omega)
    · simpa only [correctDigit, if_neg ht] using ⟨not_lt.1 ht, hhigh, trivial⟩

/-- The general digit step is a floor division: two rounds of correction are enough for its estimate (R111). -/
theorem divDigitGeneral_toNat {u : BitVec 192} {d : U128} (hd : 2 ^ 127 ≤ d.toNat)
    (hu : u.toNat / 2 ^ 64 < d.toNat) :
    (divDigitGeneral u d).1.toNat = u.toNat / d.toNat ∧
    (divDigitGeneral u d).2.toNat = u.toNat % d.toNat := by
  have hover : ((estimateDigit u d).toNat : Int) * d.toNat ≤ u.toNat + 2 * d.toNat :=
    mod_cast estimateDigit_mul_le hd
  have hunder : (u.toNat : Int) < ((estimateDigit u d).toNat + 1) * d.toNat :=
    mod_cast lt_estimateDigit_succ_mul hd hu
  obtain ⟨hr0, hrd, hkeep⟩ := correctDigit_spec (d := d) 2 (estimateDigit u d)
    (u.toNat - (estimateDigit u d).toNat * d.toNat) (by omega) (by push_cast; omega) (by linarith)
  unfold divDigitGeneral
  dsimp only
  generalize correctDigit d 2 _ = p at hr0 hrd hkeep ⊢
  have hr : ((BitVec.ofInt 128 p.2).toNat : Int) = p.2 := by
    have := d.isLt
    rw [BitVec.toNat_ofInt]
    omega
  rw [add_sub_cancel, ← hr] at hkeep
  rw [← hr] at hrd
  have hsum : (BitVec.ofInt 128 p.2).toNat + d.toNat * p.1.toNat = u.toNat := by
    zify
    linarith
  obtain ⟨hquot, hrem⟩ := (Nat.div_mod_unique (by omega)).2 ⟨hsum, by omega⟩
  exact ⟨hquot.symm, hrem.symm⟩

/-! ### The fast digit step (R112), and the step R113 selects -/

/-- The fast digit step is a floor division when the divisor's low digit is zero (R112). -/
theorem divDigitFast_toNat {u : BitVec 192} {d : U128} (hu : u.toNat / 2 ^ 64 < d.toNat)
    (hlow : d.toNat % 2 ^ 64 = 0) :
    (divDigitFast u d).1.toNat = u.toNat / d.toNat ∧
    (divDigitFast u d).2.toNat = u.toNat % d.toNat := by
  have hsplit : d.toNat = 2 ^ 64 * (d.toNat / 2 ^ 64) := by omega
  have hfit : (u.extractLsb' 64 128).toNat / 2 ^ 64 < (d.extractLsb' 64 64).toNat := by
    rw [partialHigh_toNat, divisorHigh_toNat]
    omega
  constructor
  · calc (divDigitFast u d).1.toNat
        = u.toNat / 2 ^ 64 / (d.toNat / 2 ^ 64) := by
          rw [divDigitFast, narrowDiv_fst_toNat hfit, partialHigh_toNat, divisorHigh_toNat]
      _ = u.toNat / d.toNat := by rw [Nat.div_div_eq_div_mul, ← hsplit]
  · calc (divDigitFast u d).2.toNat
        = u.toNat / 2 ^ 64 % (d.toNat / 2 ^ 64) * 2 ^ 64 + u.toNat % 2 ^ 64 := by
          rw [divDigitFast, append_toNat, narrowDiv_snd_toNat (Nat.zero_lt_of_lt hfit), partialHigh_toNat,
            divisorHigh_toNat, BitVec.extractLsb'_toNat, Nat.shiftRight_zero]
      _ = u.toNat % (2 ^ 64 * (d.toNat / 2 ^ 64)) := by rw [Nat.mod_mul]; ring
      _ = u.toNat % d.toNat := by rw [← hsplit]

/-- A digit step on the path R113 selects is a floor division. -/
theorem divDigit_toNat {u : BitVec 192} {d : U128} (hd : 2 ^ 127 ≤ d.toNat)
    (hu : u.toNat / 2 ^ 64 < d.toNat) :
    (divDigit u d).1.toNat = u.toNat / d.toNat ∧ (divDigit u d).2.toNat = u.toNat % d.toNat := by
  unfold divDigit
  split_ifs with hfast
  · exact divDigitFast_toNat hu (by rw [← divisorLow_toNat, hfast]; rfl)
  · exact divDigitGeneral_toNat hd hu

/-! ### Two digit steps (R113) -/

/-- The partial dividend of the first digit step, bits 255:64. -/
theorem firstPartial_toNat (n : U256) :
    (n.extractLsb' 128 128 ++ n.extractLsb' 64 64 : BitVec 192).toNat = n.toNat / 2 ^ 64 := by
  have hn := n.isLt
  rw [append_toNat, BitVec.extractLsb'_toNat, BitVec.extractLsb'_toNat, Nat.shiftRight_eq_div_pow,
    Nat.shiftRight_eq_div_pow]
  omega

/-- The partial dividend of the second digit step, the first remainder over bits 63:0. -/
theorem secondPartial_toNat (r : U128) (n : U256) :
    (r ++ n.extractLsb' 0 64 : BitVec 192).toNat = r.toNat * 2 ^ 64 + n.toNat % 2 ^ 64 := by
  rw [append_toNat, BitVec.extractLsb'_toNat, Nat.shiftRight_zero]

/-- Long division in base `b`: a digit from the upper part, then one from its remainder over the last digit. -/
theorem longDivision_digit (n b : Nat) {d : Nat} (hd : 0 < d) :
    n / b / d * b + (n / b % d * b + n % b) / d = n / d ∧ (n / b % d * b + n % b) % d = n % d := by
  have hn : n = d * (n / b / d * b) + (n / b % d * b + n % b) := by
    calc n = (d * (n / b / d) + n / b % d) * b + n % b := by rw [Nat.div_add_mod, Nat.div_add_mod']
      _ = d * (n / b / d * b) + (n / b % d * b + n % b) := by ring
  constructor
  · conv_rhs => rw [hn, Nat.mul_add_div hd]
  · conv_rhs => rw [hn, Nat.mul_add_mod]

/-- The divider returns floor quotient and remainder: the first digit step leaves a remainder below the divisor, which is the
precondition of the second. -/
theorem div256by128_toNat {n : U256} {d : U128} (hd : 2 ^ 127 ≤ d.toNat)
    (hn : n.toNat / 2 ^ 128 < d.toNat) :
    (div256by128 n d).1.toNat = n.toNat / d.toNat ∧ (div256by128 n d).2.toNat = n.toNat % d.toNat := by
  have hpos : 0 < d.toNat := by omega
  have hfit1 : (n.extractLsb' 128 128 ++ n.extractLsb' 64 64 : BitVec 192).toNat / 2 ^ 64 < d.toNat := by
    rw [firstPartial_toNat]
    omega
  obtain ⟨hq1, hr1⟩ := divDigit_toNat hd hfit1
  rw [firstPartial_toNat] at hq1 hr1
  unfold div256by128
  dsimp only
  generalize divDigit (n.extractLsb' 128 128 ++ n.extractLsb' 64 64) d = p1 at hq1 hr1 ⊢
  have hfit0 : (p1.2 ++ n.extractLsb' 0 64 : BitVec 192).toNat / 2 ^ 64 < d.toNat := by
    have := Nat.mod_lt (n.toNat / 2 ^ 64) hpos
    rw [secondPartial_toNat]
    omega
  obtain ⟨hq0, hr0⟩ := divDigit_toNat hd hfit0
  rw [secondPartial_toNat, hr1] at hq0 hr0
  rw [append_toNat, hq1, hq0, hr0]
  exact longDivision_digit n.toNat (2 ^ 64) hpos

/-- Settles O21: the divisor's bit 127 is the digit steps' lower bound, and floor quotient and remainder make up the
dividend. -/
theorem dividerMeetsItsContract : Obligations.DividerMeetsItsContract := by
  intro n d htop hn
  have hd : 2 ^ 127 ≤ d.toNat := by
    rwa [← BitVec.msb_eq_getLsbD_last (x := d), BitVec.msb_eq_decide, decide_eq_true_iff] at htop
  obtain ⟨hq, hr⟩ := div256by128_toNat hd hn
  rw [hq, hr]
  exact ⟨rfl, Nat.mod_add_div' _ _, Nat.mod_lt _ (by omega)⟩

end Sys2Proof.Machine
end

section
/-!
PROOFS. The rounder (spec/42_normalize_round.md R134 to R136): the 256-bit frame as a retained integer over a discarded part
out of 2^142, and each policy's decision said of those two numbers.
-/

namespace Sys2Proof.Machine

/-- With the carry bit clear no bit stands above the retained ones (R134). -/
theorem retained_toNat_of_carry_clear {f : Frame} (h : f.m.toNat < 2 ^ 255) :
    (retained f).toNat = f.m.toNat / 2 ^ 142 := by
  rw [retained_toNat_of_below h]
  omega

/-- The guard bit and the tail together see every discarded bit (R134, R135). -/
theorem guard_or_tail_iff (f : Frame) :
    (guardBit f || tailBit f) = true ↔ f.m.toNat % 2 ^ 142 ≠ 0 ∨ f.sticky = true := by
  rw [guardBit_eq, tailBit_eq]
  simp only [Bool.or_eq_true, decide_eq_true_iff, ← or_assoc]
  refine or_congr_left ?_
  omega

/-- Round-to-odd keeps the retained integer when nothing is discarded (R135). -/
theorem roundToOdd_of_exact {f : Frame} (h : f.m.toNat < 2 ^ 255)
    (hd : ¬ (f.m.toNat % 2 ^ 142 ≠ 0 ∨ f.sticky = true)) :
    (roundToOdd f).2.toNat = f.m.toNat / 2 ^ 142 := by
  rw [roundToOdd_snd_toNat, if_neg (mt (guard_or_tail_iff f).1 hd), retained_toNat_of_carry_clear h]

/-- Round-to-odd makes the retained integer odd when anything is discarded (R135). -/
theorem roundToOdd_of_inexact {f : Frame} (h : f.m.toNat < 2 ^ 255)
    (hd : f.m.toNat % 2 ^ 142 ≠ 0 ∨ f.sticky = true) :
    (roundToOdd f).2.toNat = f.m.toNat / 2 ^ 142 + (1 - f.m.toNat / 2 ^ 142 % 2) := by
  rw [roundToOdd_snd_toNat, if_pos ((guard_or_tail_iff f).2 hd), retained_toNat_of_carry_clear h]

/-- A nonzero input is not rounded to zero (R135): what is exact keeps its bits, and what is not becomes odd. -/
theorem roundToOdd_ne_zero {f : Frame} (h : f.m.toNat < 2 ^ 255) (hn : f.m ≠ 0#256 ∨ f.sticky = true) :
    (roundToOdd f).2 ≠ 0#113 := by
  intro h0
  have hz : (roundToOdd f).2.toNat = 0 := by rw [h0]; rfl
  by_cases hd : f.m.toNat % 2 ^ 142 ≠ 0 ∨ f.sticky = true
  · rw [roundToOdd_of_inexact h hd] at hz
    omega
  · rw [roundToOdd_of_exact h hd] at hz
    have hm : f.m.toNat = 0 := by omega
    exact hn.elim (fun hne => hne (BitVec.eq_of_toNat_eq hm)) (fun hs => hd (Or.inr hs))

/-- Settles O23: the two cases of `roundToOdd_snd_toNat`, told apart by the discarded part. -/
theorem roundToOddSetsTheLastBit : Obligations.RoundToOddSetsTheLastBit := by
  intro f h
  refine ⟨rfl, fun hd hs => roundToOdd_of_exact h ?_, roundToOdd_of_inexact h, roundToOdd_ne_zero h⟩
  rintro (hne | hsticky)
  · exact hne hd
  · exact Bool.false_ne_true (hs.symm.trans hsticky)

/-- The increment is taken above half a unit, and at half when a sticky bit or an odd retained integer decides (R136). -/
theorem increment_iff {f : Frame} (h : f.m.toNat < 2 ^ 255) :
    (guardBit f && (tailBit f || (retained f).getLsbD 0)) = true ↔
      2 ^ 141 < f.m.toNat % 2 ^ 142 ∨
        (f.m.toNat % 2 ^ 142 = 2 ^ 141 ∧ (f.sticky = true ∨ f.m.toNat / 2 ^ 142 % 2 = 1)) := by
  have hguard : f.m.toNat / 2 ^ 141 % 2 = 1 ↔ 2 ^ 141 ≤ f.m.toNat % 2 ^ 142 := by omega
  have htail : 2 ^ 141 ≤ f.m.toNat % 2 ^ 142 → (f.m.toNat % 2 ^ 141 ≠ 0 ↔ f.m.toNat % 2 ^ 142 ≠ 2 ^ 141) := by
    omega
  rw [guardBit_eq, tailBit_eq, getLsbD_zero_eq, retained_toNat_of_carry_clear h]
  simp only [Bool.and_eq_true, Bool.or_eq_true, decide_eq_true_iff, or_assoc, hguard]
  constructor
  · rintro ⟨hge, hlow | hdecide⟩
    · exact Or.inl (lt_of_le_of_ne hge ((htail hge).1 hlow).symm)
    · exact hge.lt_or_eq.imp id fun heq => ⟨heq.symm, hdecide⟩
  · rintro (hlt | ⟨heq, hdecide⟩)
    · exact ⟨hlt.le, Or.inl ((htail hlt.le).2 hlt.ne')⟩
    · exact ⟨heq.ge, Or.inr hdecide⟩

/-- The count before the carry is taken back, said of the retained integer and the discarded part (R136). -/
theorem nearestCount_of_carry_clear {f : Frame} (h : f.m.toNat < 2 ^ 255) :
    nearestCount f = f.m.toNat / 2 ^ 142 +
      (if 2 ^ 141 < f.m.toNat % 2 ^ 142 ∨
          (f.m.toNat % 2 ^ 142 = 2 ^ 141 ∧ (f.sticky = true ∨ f.m.toNat / 2 ^ 142 % 2 = 1))
        then 1 else 0) := by
  rw [nearestCount, retained_toNat_of_carry_clear h, if_congr (increment_iff h) rfl rfl]

/-- Settles O24: no exponent step while the count fits 113 bits, and one when it has reached 2^113. -/
theorem roundToNearestEvenPicksTheNearest : Obligations.RoundToNearestEvenPicksTheNearest := by
  intro f h
  rw [← nearestCount_of_carry_clear h]
  rcases roundToNearestEven_eq f with ⟨-, hexp, hq⟩ | ⟨hcarry, hexp, hq⟩
  · exact ⟨0, by norm_num, by simpa using hexp, by norm_num, by simpa using hq⟩
  · exact ⟨1, le_rfl, hexp, fun _ => hq, by rw [hq, hcarry, ← pow_add]⟩

end Sys2Proof.Machine
end

section
/-!
PROOFS. The packer (spec/42_normalize_round.md R137): the fields of each of its results.
-/

namespace Sys2Proof.Machine

/-- The integer bit is set from 2^112 on (R134, R137). -/
theorem integerBit_eq_true_iff (q : Sig) : q.getLsbD 112 = true ↔ 2 ^ 112 ≤ q.toNat := by
  rw [bit112_eq, decide_eq_true_iff]

/-- The fields of a subnormal or zero result (R137). -/
theorem packResult_subnormal_fields (mode : Rounding) (s : Bool) (e : Int) {q : Sig} (hq : q.toNat < 2 ^ 112) :
    signOf (packResult mode s e q) = s ∧ (bexpOf (packResult mode s e q)).toNat = 0 ∧
      (fracOf (packResult mode s e q)).toNat = q.toNat := by
  have hbit : q.getLsbD 112 = false := by rw [bit112_eq, decide_eq_false hq.not_ge]
  rw [packResult_low mode s e hbit, signOf_pack, bexpOf_pack, fracOf_pack, low112_toNat]
  exact ⟨rfl, rfl, Nat.mod_eq_of_lt hq⟩

/-- The fields of a normal result: the integer bit is left out of the fraction (R137). -/
theorem packResult_normal_fields (mode : Rounding) (s : Bool) {e : Int} {q : Sig} (hq : 2 ^ 112 ≤ q.toNat)
    (h0 : 0 ≤ e) (h1 : e < 0x7FFF) :
    signOf (packResult mode s e q) = s ∧ ((bexpOf (packResult mode s e q)).toNat : Int) = e ∧
      (fracOf (packResult mode s e q)).toNat + 2 ^ 112 = q.toNat := by
  have hlt := q.isLt
  rw [packResult_normal mode s ((integerBit_eq_true_iff q).2 hq) h1, signOf_pack, bexpOf_pack, fracOf_pack,
    low112_toNat]
  exact ⟨rfl, ofInt15_toNat h0 h1, by omega⟩

/-- Settles O25: the packer's ways out, each read off its fields or its overflow constant. -/
theorem packerHandlesSubnormalOverflowAndNormal : Obligations.PackerHandlesSubnormalOverflowAndNormal := by
  intro mode s e q
  refine ⟨packResult_subnormal_fields mode s e, fun hq he => ?_, fun hq h1 he => ?_⟩
  · have hbit := (integerBit_eq_true_iff q).2 hq
    exact ⟨packResult_overflow_ro s hbit he, packResult_overflow_rne s hbit he⟩
  · exact packResult_normal_fields mode s hq (by omega) he

end Sys2Proof.Machine
end

section
/-!
PROOFS. The operand classes (spec/40_decompose_classify.md R86) against one another, under quieting (R151) and under the
sign flip of the subtract forms (R153).
-/

namespace Sys2Proof.Machine

/-- A quieted NaN is a NaN still (R151). -/
theorem isNaN_quiet {x : Float128} (h : isNaN x = true) : isNaN (quiet x) = true := by
  have hfrac : fracOf (quiet x) ≠ 0#112 := fun h0 => by
    have hbit := fracOf_quiet_quietBit x
    rw [h0] at hbit
    exact absurd hbit (by decide)
  simp [isNaN, cls, bexpOf_of_isNaN h, hfrac, fracOf_quiet_quietBit]

theorem isNaN_of_inf {x : Float128} (h : isInf x = true) : isNaN x = false := by
  simp [isNaN, (isInf_iff_cls x).1 h]

theorem isZero_of_inf {x : Float128} (h : isInf x = true) : isZero x = false := by
  simp [isZero, (isInf_iff_cls x).1 h]

theorem isFinite_of_zero {x : Float128} (h : isZero x = true) : isFinite x = true := by
  simp [isFinite, (isZero_iff_cls x).1 h]

@[simp] theorem isInf_effective (isSub : Bool) (x : Float128) : isInf (effective isSub x) = isInf x := by
  cases isSub <;> simp

end Sys2Proof.Machine
end

section
/-!
PROOFS. The resolver's answers (spec/43_special_values.md R150 to R157): one view of the four resolvers by function, the
instruction's answer wherever the resolver has one, and what the resolvers say of NaN operands.
-/

namespace Sys2Proof.Machine

/-- The resolver that a function consults (R153 to R156), with the operands it reads. -/
def resolve (f : Fn) (a b c : Float128) : Option Float128 :=
  match f with
  | .add => resolveAdd a b false
  | .sub => resolveAdd a b true
  | .mul => resolveMul a b
  | .div => resolveDiv a b
  | .fma => resolveFma a b c false
  | .fms => resolveFma a b c true

section
variable {a b c v : Float128} {isSub : Bool}

theorem addSub_of_resolve (m : Rounding) (h : resolveAdd a b isSub = some v) : addSub m a b isSub = v := by
  rw [addSub, addSubResult, h, deliver_special]

theorem mul_of_resolve (m : Rounding) (h : resolveMul a b = some v) : mul m a b = v := by
  rw [mul, mulResult, h, deliver_special]

theorem div_of_resolve (m : Rounding) (h : resolveDiv a b = some v) : div m a b = v := by
  rw [div, divResult, h, deliver_special]

theorem fma_of_resolve (m : Rounding) (h : resolveFma a b c isSub = some v) : fma m a b c isSub = v := by
  rw [fma, fmaResult, h, deliver_special]

end

/-- What the resolver answers is the result, under either policy (R150). -/
theorem exec_of_resolve (m : Rounding) {f : Fn} {s : State} {v : Float128}
    (h : resolve f s.a_i s.b_i s.c_i = some v) : exec (instrOf m f) s = .next (s.respond v) := by
  cases f with
  | add => rw [exec_add, addSub_of_resolve m h]
  | sub => rw [exec_sub, addSub_of_resolve m h]
  | mul => rw [exec_mul, mul_of_resolve m h]
  | div => rw [exec_div, div_of_resolve m h]
  | fma => rw [exec_fma, fma_of_resolve m h]
  | fms => rw [exec_fms, fma_of_resolve m h]

/-- A NaN `a` comes before everything else, in each of the four resolvers (R157). -/
theorem resolve_nan_left (f : Fn) {a : Float128} (b c : Float128) (ha : isNaN a = true) :
    resolve f a b c = some (quiet a) := by
  cases f <;> exact if_pos ha

/-- A NaN `b` comes second, after a NaN `a` only (R157). -/
theorem resolve_nan_right (f : Fn) {a b : Float128} (c : Float128) (ha : isNaN a = false) (hb : isNaN b = true) :
    resolve f a b c = some (quiet b) := by
  have hna : ¬ isNaN a = true := by simp [ha]
  cases f <;> exact (if_neg hna).trans (if_pos hb)

/-- A NaN addend comes third, after the product's own invalid case, and it is not negated (R156, R157). -/
theorem resolveFma_nan_addend {a b c : Float128} (isSub : Bool) (ha : isNaN a = false) (hb : isNaN b = false)
    (hp : invalidProduct a b = false) (hc : isNaN c = true) : resolveFma a b c isSub = some (quiet c) := by
  rw [invalidProduct] at hp
  simp [resolveFma, ha, hb, hp, hc]

/-- A NaN addend in the resolver of a fused function, whether it adds or subtracts (R157). -/
theorem resolve_nan_addend {f : Fn} {a b c : Float128} (hf : f.fused = true) (ha : isNaN a = false)
    (hb : isNaN b = false) (hp : invalidProduct a b = false) (hc : isNaN c = true) :
    resolve f a b c = some (quiet c) := by
  cases f
  case fma => exact resolveFma_nan_addend false ha hb hp hc
  case fms => exact resolveFma_nan_addend true ha hb hp hc
  all_goals cases hf

/-- Settles O37: the NaN cases of the resolver that the instruction's function consults. -/
theorem firstNaNOperandIsReturnedQuieted : Obligations.FirstNaNOperandIsReturnedQuieted := by
  intro i s
  rw [← instrOf_mode_fn i, fn_instrOf]
  exact ⟨fun ha => exec_of_resolve _ (resolve_nan_left _ _ _ ha),
    fun ha hb => exec_of_resolve _ (resolve_nan_right _ _ ha hb),
    fun hf ha hb hp hc => exec_of_resolve _ (resolve_nan_addend hf ha hb hp hc)⟩

end Sys2Proof.Machine
end

section
/-!
PROOFS. ADDQ and SUBQ on infinities (spec/43_special_values.md R153).
-/

namespace Sys2Proof.Machine

section
variable {a b : Float128}

/-- Two infinities of one effective sign give the first (R153). -/
theorem resolveAdd_inf_same {isSub : Bool} (ha : isInf a = true) (hb : isInf b = true)
    (hs : signOf a = signOf (effective isSub b)) : resolveAdd a b isSub = some a := by
  simp only [resolveAdd, isNaN_of_inf ha, isNaN_of_inf hb, isInf_effective, ha, hb, hs, Bool.and_self,
    Bool.false_eq_true, if_true, if_false]

/-- Two infinities of opposite effective signs are invalid (R153). -/
theorem resolveAdd_inf_opposed {isSub : Bool} (ha : isInf a = true) (hb : isInf b = true)
    (hs : signOf a ≠ signOf (effective isSub b)) : resolveAdd a b isSub = some defaultQNaN := by
  simp only [resolveAdd, isNaN_of_inf ha, isNaN_of_inf hb, isInf_effective, ha, hb, hs, Bool.and_self,
    Bool.false_eq_true, if_true, if_false]

/-- An infinite first operand against a finite one is the answer (R153). -/
theorem resolveAdd_inf_finite (isSub : Bool) (ha : isInf a = true) (hb : isFinite b = true) :
    resolveAdd a b isSub = some a := by
  simp [resolveAdd, isNaN_of_inf ha, isNaN_of_finite hb, ha, isInf_of_finite hb]

/-- An infinite second operand against a finite one is the answer, negated for a subtract (R153). -/
theorem resolveAdd_finite_inf (isSub : Bool) (ha : isFinite a = true) (hb : isInf b = true) :
    resolveAdd a b isSub = some (effective isSub b) := by
  simp [resolveAdd, isNaN_of_finite ha, isNaN_of_inf hb, isInf_of_finite ha, hb]

end

/-- Settles O39: each clause is one answer of `resolveAdd`, which ADDQ and SUBQ share. -/
theorem addAndSubtractOfInfinities : Obligations.AddAndSubtractOfInfinities := by
  intro mode isSub s i b'
  have hexec {v : Float128} (h : resolveAdd s.a_i s.b_i isSub = some v) : exec i s = .next (s.respond v) := by
    cases isSub
    · exact exec_of_resolve (f := .add) mode h
    · exact exec_of_resolve (f := .sub) mode h
  refine ⟨(firstNaNOperandIsReturnedQuieted i s).1, (firstNaNOperandIsReturnedQuieted i s).2.1,
    fun ha hb hs => hexec (resolveAdd_inf_same ha hb hs), fun ha hb hs => hexec (resolveAdd_inf_opposed ha hb hs),
    fun ha hb => hexec (resolveAdd_inf_finite isSub ha hb), fun ha hb => hexec (resolveAdd_finite_inf isSub ha hb),
    resolveAdd_eq_none_iff ..⟩

end Sys2Proof.Machine
end

section
/-!
PROOFS. MULQ on infinities and zeros, and the sign of its results (spec/43_special_values.md R154, spec/45_multiply.md
R190).
-/

namespace Sys2Proof.Machine

section
variable {a b v : Float128}

/-- Inf x 0, in either order, is invalid (R154). -/
theorem resolveMul_invalid (h : isInf a = true ∧ isZero b = true ∨ isZero a = true ∧ isInf b = true) :
    resolveMul a b = some defaultQNaN := by
  rcases h with ⟨hi, hz⟩ | ⟨hz, hi⟩
  · simp [resolveMul, isNaN_of_inf hi, isNaN_of_finite (isFinite_of_zero hz), hi, hz]
  · simp [resolveMul, isNaN_of_inf hi, isNaN_of_finite (isFinite_of_zero hz), hi, hz]

/-- Two factors that are no NaN and not zero, one of them infinite, give a signed infinity (R154). -/
theorem resolveMul_inf (ha : isNaN a = false) (hb : isNaN b = false) (hza : isZero a = false)
    (hzb : isZero b = false) (h : isInf a = true ∨ isInf b = true) :
    resolveMul a b = some (signedInf (signOf a ^^ signOf b)) := by
  simp [resolveMul, ha, hb, hza, hzb, h]

/-- Two finite factors, one of them zero, give a signed zero (R154). -/
theorem resolveMul_zero (ha : isFinite a = true) (hb : isFinite b = true) (h : isZero a = true ∨ isZero b = true) :
    resolveMul a b = some (signedZero (signOf a ^^ signOf b)) := by
  simp [resolveMul, isNaN_of_finite ha, isNaN_of_finite hb, isInf_of_finite ha, isInf_of_finite hb, h]

/-- The resolver's answer to a product is a NaN, or it has the exclusive OR of the operand signs (R154). -/
theorem resolveMul_sign (h : resolveMul a b = some v) : isNaN v = true ∨ signOf v = (signOf a ^^ signOf b) := by
  unfold resolveMul at h
  split_ifs at h with hna hnb <;> cases h
  · exact Or.inl (isNaN_quiet hna)
  · exact Or.inl (isNaN_quiet hnb)
  · exact Or.inl (by simp [isNaN])
  · exact Or.inr (signOf_signedInf _)
  · exact Or.inr (signOf_signedZero _)

end

/-- The packer keeps the sign, whichever way out it takes (R137). -/
@[simp] theorem signOf_packResult (mode : Rounding) (s : Bool) (e : Int) (q : Sig) :
    signOf (packResult mode s e q) = s := by
  rcases packResult_cases mode s e q with ⟨-, h⟩ | ⟨-, -, -, h⟩ | ⟨-, -, -, h⟩ | ⟨-, -, h⟩ <;> simp [h]

@[simp] theorem signOf_normRoundPack (mode : Rounding) (s : Bool) (e : Int) (m : U256) (x : Bool) :
    signOf (normRoundPack mode s e m x) = s :=
  signOf_packResult ..

/-- A product is a NaN, or it has the exclusive OR of the operand signs (R154, R190). -/
theorem mul_sign (mode : Rounding) (a b : Float128) :
    isNaN (mul mode a b) = true ∨ signOf (mul mode a b) = (signOf a ^^ signOf b) := by
  cases h : resolveMul a b with
  | none =>
    obtain ⟨ha, hb⟩ := (resolveMul_eq_none_iff a b).1 h
    rw [mul_of_nonzeroFinite mode ha hb]
    exact Or.inr (signOf_normRoundPack ..)
  | some v =>
    rw [mul_of_resolve mode h]
    exact resolveMul_sign h

/-- Settles O40: each clause is one answer of `resolveMul`; the sign of a result also needs the finite path. -/
theorem multiplyOfInfinitiesAndZeros : Obligations.MultiplyOfInfinitiesAndZeros := by
  intro mode s i sx
  have hexec {v : Float128} (h : resolveMul s.a_i s.b_i = some v) : exec i s = .next (s.respond v) :=
    exec_of_resolve (f := .mul) mode h
  refine ⟨fun ha => hexec (resolve_nan_left .mul _ s.c_i ha), fun ha hb => hexec (resolve_nan_right .mul s.c_i ha hb),
    fun ha hb => hexec (resolveMul_invalid (.inl ⟨ha, hb⟩)),
    fun ha hb => hexec (resolveMul_invalid (.inr ⟨ha, hb⟩)),
    fun ha hb hz => hexec (resolveMul_inf (isNaN_of_inf ha) hb (isZero_of_inf ha) hz (.inl ha)),
    fun ha hz hb => hexec (resolveMul_inf ha (isNaN_of_inf hb) hz (isZero_of_inf hb) (.inr hb)),
    fun ha hb => hexec (resolveMul_zero (isFinite_of_zero ha) hb (.inl ha)),
    fun ha hb => hexec (resolveMul_zero ha (isFinite_of_zero hb) (.inr hb)),
    fun t ht hn => ?_, resolveMul_eq_none_iff _ _⟩
  cases (exec_mul mode s).symm.trans ht
  exact (mul_sign mode s.a_i s.b_i).resolve_left (by simpa using hn)

end Sys2Proof.Machine
end

section
/-!
PROOFS. SUBQ against ADDQ of the negated operand (spec/44_add_sub.md R172).
-/

namespace Sys2Proof.Machine

/-- A `b` that is no NaN enters the resolver through its effective value only (R153). -/
theorem resolveAdd_sub_eq_add_negate (a : Float128) {b : Float128} (hb : isNaN b = false) :
    resolveAdd a b true = resolveAdd a (negate b) false := by
  have heff : effective true b = effective false (negate b) := rfl
  rw [resolveAdd, resolveAdd, heff]
  simp only [isNaN_negate, hb, Bool.false_eq_true, if_false]

/-- The finite path reads the effective `b` too, so the two agree before rounding already (R170, R172). -/
theorem addSub_sub_eq_add_negate (mode : Rounding) (a : Float128) {b : Float128} (hb : isNaN b = false) :
    addSub mode a b true = addSub mode a (negate b) false := by
  rw [addSub, addSub, addSubResult, addSubResult, resolveAdd_sub_eq_add_negate a hb, effective_true, effective_false]

/-- A NaN `b` fixes the resolver's answer, whatever the function is (R157). -/
theorem resolve_of_nan_right (a c : Float128) {b : Float128} (hb : isNaN b = true) :
    ∃ v, ∀ f, resolve f a b c = some v := by
  cases ha : isNaN a with
  | true => exact ⟨quiet a, fun f => resolve_nan_left f b c ha⟩
  | false => exact ⟨quiet b, fun f => resolve_nan_right f c ha hb⟩

/-- Settles O46: off the NaNs by the agreement before rounding; at a NaN `b` the resolver answers both alike. -/
theorem subtractIsAddOfTheNegation : Obligations.SubtractIsAddOfTheNegation := by
  intro mode s
  refine ⟨fun hb => ⟨addSub mode s.a_i s.b_i true, exec_sub mode s, ?_⟩, fun hb => ?_⟩
  · rw [exec_add, addSub_sub_eq_add_negate mode s.a_i hb]
  · obtain ⟨v, hv⟩ := resolve_of_nan_right s.a_i s.c_i hb
    exact (exec_of_resolve mode (hv .sub)).trans (exec_of_resolve mode (hv .add)).symm

end Sys2Proof.Machine
end

section
/-!
PROOFS. The normalizer (spec/42_normalize_round.md R130 to R133): one shift in one of two directions, and the form it
leaves the frame in.
-/

namespace Sys2Proof.Machine

/-- Dividing by one power of two and then by another: the quotient (R104). -/
theorem div_two_pow_add (m a b : Nat) : m / 2 ^ (a + b) = m / 2 ^ a / 2 ^ b := by
  rw [pow_add, Nat.div_div_eq_div_mul]

/-- Dividing by one power of two and then by another: both remainders are 0, or the whole one is not (R104). -/
theorem mod_two_pow_add_eq_zero_iff (m a b : Nat) :
    m % 2 ^ (a + b) = 0 ↔ m % 2 ^ a = 0 ∧ m / 2 ^ a % 2 ^ b = 0 := by
  have hpos : 2 ^ a ≠ 0 := by positivity
  rw [pow_add, Nat.mod_mul, Nat.add_eq_zero_iff, Nat.mul_eq_zero, or_iff_right hpos]

/-- N1 is a right shift by 0 or 1 places, the bit shifted out going into the sticky bit (R131). -/
theorem normCarry_shift (f : Frame) :
    ∃ d : Nat, (normCarry f).exp = f.exp + d ∧ (normCarry f).m.toNat = f.m.toNat / 2 ^ d ∧
      (normCarry f).sticky = (f.sticky || decide (f.m.toNat % 2 ^ d ≠ 0)) := by
  rcases normCarry_cases f with ⟨-, hexp, hm, hsticky⟩ | ⟨-, h⟩
  · refine ⟨1, hexp, hm, ?_⟩
    rw [hsticky, pow_one]
    congr 2
    simp
  · exact ⟨0, by simp [h], by simp [h], by simp [h, Nat.mod_one]⟩

/-- The normalizer moves the frame right, the sticky bit taking what is lost, or left, losing nothing (R131 to R133). -/
theorem normalize_shift (f : Frame) :
    (∃ d : Nat, (normalize f).exp = f.exp + d ∧ (normalize f).m.toNat = f.m.toNat / 2 ^ d ∧
      (normalize f).sticky = (f.sticky || decide (f.m.toNat % 2 ^ d ≠ 0))) ∨
    (∃ sh : Nat, (normalize f).exp = f.exp - sh ∧ (normalize f).m.toNat = f.m.toNat * 2 ^ sh ∧
      (normalize f).sticky = f.sticky) := by
  have hcarry := normCarry_shift f
  rcases normalize_cases f with ⟨hlow, h⟩ | ⟨-, -, h⟩ | ⟨hpos, hbelow, h⟩
  · -- N2 after N1: two right shifts are one
    obtain ⟨d, hexp, hm, hsticky⟩ := hcarry
    obtain ⟨hexp', hm', hsticky'⟩ := normTiny_spec (normCarry f)
    refine .inl ⟨d + (1 - (normCarry f).exp).toNat, ?_, ?_, ?_⟩
    · rw [h, hexp']
      omega
    · rw [h, hm', hm, div_two_pow_add]
    · rw [h, hsticky', hsticky, hm, Bool.or_assoc, ← Bool.decide_or]
      congr 2
      simp only [ne_eq, mod_two_pow_add_eq_zero_iff, not_and_or]
  · rw [h]
    exact .inl hcarry
  · -- N3: a frame below bit 254 had no carry
    have hkeep : normCarry f = f := by
      rcases normCarry_cases f with ⟨hge, -, hm, -⟩ | ⟨-, hkeep⟩
      · omega
      · exact hkeep
    obtain ⟨sh, -, hexp, -, hm, hsticky, -⟩ := normLeft_spec hpos
    rw [hkeep] at h hexp hm hsticky
    rw [h]
    exact .inr ⟨sh, hexp, hm, hsticky⟩

/-- A frame with its carry bit clear has a leading zero (R102). -/
theorem one_le_clz {m : U256} (h : m.toNat < 2 ^ 255) : 1 ≤ clz m := by
  by_contra hc
  have h0 : m ≠ 0#256 := by
    rintro rfl
    simp at hc
  have hlead := pow_le_of_clz h0
  rw [show 256 - 1 - clz m = 255 by omega] at hlead
  omega

/-- "After N1, `M[255] = 0`" (R131), and neither N2 nor N3 brings the bit back. -/
theorem normalize_lt (f : Frame) : (normalize f).m.toNat < 2 ^ 255 := by
  have hcarry := normCarry_lt f
  rcases normalize_cases f with ⟨-, h⟩ | ⟨-, -, h⟩ | ⟨hpos, hbelow, h⟩
  · rw [h, (normTiny_spec _).2.1]
    exact (Nat.div_le_self _ _).trans_lt hcarry
  · rwa [h]
  · obtain ⟨sh, hsh, -, -, hm, -, -⟩ := normLeft_spec hpos
    rw [h, hm]
    by_cases h0 : (normCarry f).m = 0#256
    · simp [h0]
    · have hclz := clz_lt h0
      have hclz1 := one_le_clz hcarry
      calc (normCarry f).m.toNat * 2 ^ sh
          < 2 ^ (256 - clz (normCarry f).m) * 2 ^ sh :=
            Nat.mul_lt_mul_of_pos_right (lt_pow_sub_clz _) (by positivity)
        _ ≤ 2 ^ (256 - clz (normCarry f).m) * 2 ^ (clz (normCarry f).m - 1) :=
            Nat.mul_le_mul_left _ (Nat.pow_le_pow_right (by norm_num) hsh)
        _ = 2 ^ 255 := by rw [← pow_add]; congr 1; omega

/-- The exponent leaves the normalizer at 1 or more (R132, R133). -/
theorem one_le_normalize_exp (f : Frame) : 1 ≤ (normalize f).exp := by
  rcases normalize_cases f with ⟨-, h⟩ | ⟨hpos, -, h⟩ | ⟨hpos, -, h⟩
  · rw [h, (normTiny_spec _).1]
  · rwa [h]
  · obtain ⟨-, -, -, hexp, -⟩ := normLeft_spec hpos
    rwa [h]

/-- A nonzero frame leaves the normalizer with its leading 1 at bit 254, or with exponent 1 (R132, R133). -/
theorem normalize_leading {f : Frame} (h0 : f.m ≠ 0#256) :
    2 ^ 254 ≤ (normalize f).m.toNat ∨ (normalize f).exp = 1 := by
  rcases normalize_cases f with ⟨-, h⟩ | ⟨-, hge, h⟩ | ⟨hpos, hbelow, h⟩
  · exact .inr (by rw [h, (normTiny_spec _).1])
  · exact .inl (by rwa [h])
  · have hg : (normCarry f).m ≠ 0#256 := by
      rcases normCarry_cases f with ⟨hge, -, hm, -⟩ | ⟨-, hkeep⟩
      · omega
      · rwa [hkeep]
    obtain ⟨sh, hsh, -, -, hm, -, hfull | hexp⟩ := normLeft_spec hpos
    · left
      have hlead := pow_le_of_clz hg
      have hclz := clz_lt hg
      have hclz1 := one_le_clz (normCarry_lt f)
      calc 2 ^ 254 = 2 ^ (256 - 1 - clz (normCarry f).m) * 2 ^ sh := by rw [← pow_add]; congr 1; omega
        _ ≤ (normCarry f).m.toNat * 2 ^ sh := Nat.mul_le_mul_right _ hlead
        _ = (normalize f).m.toNat := by rw [h, hm]
    · exact .inr (by rwa [h])

theorem normalized_normalize {f : Frame} (h0 : f.m ≠ 0#256) : Normalized (normalize f) :=
  ⟨normalize_lt f, one_le_normalize_exp f, normalize_leading h0⟩

/-- A frame with something in it keeps a bit or gets its sticky bit (R131 to R133). -/
theorem normalize_ne_zero {f : Frame} (h0 : f.m ≠ 0#256) :
    (normalize f).m ≠ 0#256 ∨ (normalize f).sticky = true := by
  have hpos := toNat_pos_of_ne_zero h0
  rw [or_iff_not_imp_left, not_not]
  intro hz
  have hz' : (normalize f).m.toNat = 0 := by rw [hz]; rfl
  rcases normalize_shift f with ⟨d, -, hm, hsticky⟩ | ⟨sh, -, hm, -⟩
  · have hlt : f.m.toNat < 2 ^ d := by
      rw [hm, Nat.div_eq_zero_iff] at hz'
      exact hz'.resolve_left (by positivity)
    simp [hsticky, Nat.mod_eq_of_lt hlt, hpos.ne']
  · rw [hm] at hz'
    have := Nat.mul_pos hpos (show 0 < 2 ^ sh by positivity)
    omega

/-- A frame moved right by `d` places without loss, its exponent raised by `d`, keeps its magnitude (R109, R131). -/
theorem frameValue_shift_right {e e' : Int} {m m' : U256} {d : Nat} (he : e' = e + d)
    (hm : m'.toNat * 2 ^ d = m.toNat) : frameValue e' m' = frameValue e m := by
  rw [frameValue, frameValue, ← hm, he, show e + (d : Int) - 16637 = (d : Int) + (e - 16637) by ring,
    zpow_add₀ two_ne_zero, zpow_natCast]
  push_cast
  ring

/-- Where no sticky bit is raised the magnitude is unchanged (R131 to R133). -/
theorem normalize_exact {f : Frame} (hs : (normalize f).sticky = false) :
    frameValue (normalize f).exp (normalize f).m = frameValue f.exp f.m := by
  rcases normalize_shift f with ⟨d, hexp, hm, hsticky⟩ | ⟨sh, hexp, hm, -⟩
  · have hmod : f.m.toNat % 2 ^ d = 0 := by
      rw [hsticky] at hs
      simpa using (Bool.or_eq_false_iff.1 hs).2
    refine frameValue_shift_right hexp ?_
    rw [hm]
    exact Nat.div_mul_cancel (Nat.dvd_of_mod_eq_zero hmod)
  · exact (frameValue_shift_right (by omega) hm.symm).symm

/-- Settles O22: the normalizer's form, what it keeps, and its exactness without a sticky bit, one lemma each. -/
theorem normalizedFramesAreInForm : Obligations.NormalizedFramesAreInForm := fun f =>
  ⟨normalize_lt f, one_le_normalize_exp f, normalize_leading, normalize_ne_zero, normalize_exact⟩

end Sys2Proof.Machine
end

section
/-!
PROOFS. `NormRoundPack` (spec/42_normalize_round.md R138). A frame need not be the exact magnitude: it is enough that the two
agree from some bit upward and that the normalizer leaves that bit below the guard bit. Rounding to odd at the bit below
(spec/41_datapath_units.md R105) is what makes a jammed frame agree with the exact magnitude.
-/

namespace Sys2Proof.Machine

/-- The integer `m` and the number `t` have the same floor at bit `c`, and both or neither leave a remainder there. -/
structure AgreesFrom (c m : Nat) (t : ℚ) : Prop where
  lower : ((m / 2 ^ c : Nat) : ℚ) * 2 ^ c ≤ t
  upper : t < (((m / 2 ^ c : Nat) : ℚ) + 1) * 2 ^ c
  exact : m % 2 ^ c = 0 ↔ t = ((m / 2 ^ c : Nat) : ℚ) * 2 ^ c

theorem agreesFrom_zero (m : Nat) : AgreesFrom 0 m m :=
  ⟨by simp, by simp, by simp [Nat.mod_one]⟩

/-- Agreement at a bit is agreement at every higher one. -/
theorem AgreesFrom.add {c m : Nat} {t : ℚ} (h : AgreesFrom c m t) (d : Nat) : AgreesFrom (c + d) m t := by
  obtain ⟨hlow, hup, hex⟩ := h
  have hc : (0 : ℚ) < 2 ^ c := by positivity
  have hsplit := Nat.div_add_mod (m / 2 ^ c) (2 ^ d)
  have hr := Nat.mod_lt (m / 2 ^ c) (show 0 < 2 ^ d by positivity)
  have hmod := mod_two_pow_add_eq_zero_iff m c d
  rw [← div_two_pow_add] at hsplit
  set q' := m / 2 ^ (c + d)
  set q := m / 2 ^ c
  set r := q % 2 ^ d
  have hq : (q : ℚ) = 2 ^ d * q' + r := by exact_mod_cast hsplit.symm
  have hr1 : (r : ℚ) + 1 ≤ 2 ^ d := by exact_mod_cast hr
  have hr0 : (0 : ℚ) ≤ r := Nat.cast_nonneg r
  have hexp : (2 : ℚ) ^ (c + d) = 2 ^ d * 2 ^ c := by rw [pow_add, mul_comm]
  refine ⟨?_, ?_, ?_⟩
  · calc (q' : ℚ) * 2 ^ (c + d) = (2 ^ d * q') * 2 ^ c := by rw [hexp]; ring
      _ ≤ q * 2 ^ c := by gcongr; linarith
      _ ≤ t := hlow
  · calc t < ((q : ℚ) + 1) * 2 ^ c := hup
      _ ≤ (2 ^ d * (q' + 1)) * 2 ^ c := by gcongr; linarith
      _ = (q' + 1) * 2 ^ (c + d) := by rw [hexp]; ring
  · rw [hmod, hex, show (q' : ℚ) * 2 ^ (c + d) = (q - r) * 2 ^ c by rw [hexp, hq]; ring]
    constructor
    · rintro ⟨ht, hzero⟩
      rw [ht, hzero]
      simp
    · intro ht
      have hle : (q : ℚ) * 2 ^ c ≤ (q - r) * 2 ^ c := ht ▸ hlow
      have hrz : (r : ℚ) = 0 := by linarith [le_of_mul_le_mul_right hle hc]
      exact ⟨by rw [ht, hrz, sub_zero], by exact_mod_cast hrz⟩

/-- Agreement is kept when both sides move left. -/
theorem AgreesFrom.shiftLeft {c m : Nat} {t : ℚ} (h : AgreesFrom c m t) (k : Nat) :
    AgreesFrom (c + k) (m * 2 ^ k) (t * 2 ^ k) := by
  obtain ⟨hlow, hup, hex⟩ := h
  have hk : (0 : ℚ) < 2 ^ k := by positivity
  have hdiv : m * 2 ^ k / 2 ^ (c + k) = m / 2 ^ c := by
    rw [pow_add, Nat.mul_div_mul_right _ _ (by positivity)]
  have hmod : m * 2 ^ k % 2 ^ (c + k) = 0 ↔ m % 2 ^ c = 0 := by
    have : 2 ^ k ≠ 0 := by positivity
    rw [pow_add, Nat.mul_mod_mul_right, Nat.mul_eq_zero, or_iff_left this]
  refine ⟨?_, ?_, ?_⟩
  · rw [hdiv, pow_add, ← mul_assoc]
    gcongr
  · rw [hdiv, pow_add, ← mul_assoc]
    gcongr
  · rw [hdiv, hmod, hex, pow_add, ← mul_assoc, mul_left_inj' hk.ne']

/-- `n` is `t` rounded to odd at bit 0 (R105): `t` itself, or an odd number less than 1 away from it. -/
def RoundedToOdd (n : Nat) (t : ℚ) : Prop :=
  t = n ∨ (n % 2 = 1 ∧ (n : ℚ) < t + 1 ∧ t < n + 1)

/-- A number rounded to odd agrees from bit 1 upward: an odd number stands for everything between two even ones. -/
theorem RoundedToOdd.agreesFrom {n : Nat} {t : ℚ} (h : RoundedToOdd n t) : AgreesFrom 1 n t := by
  rcases h with rfl | ⟨hodd, hlow, hup⟩
  · exact (agreesFrom_zero n).add 1
  · have hn : (n : ℚ) = (n / 2 : Nat) * 2 + 1 := by
      have : n = n / 2 * 2 + 1 := by omega
      exact_mod_cast this
    refine ⟨?_, ?_, ?_⟩
    · rw [pow_one, pow_one]
      linarith
    · rw [pow_one, pow_one]
      linarith
    · rw [pow_one, pow_one]
      exact ⟨fun h0 => by omega, fun ht => by linarith⟩

/-- The frame `m` at exponent `e` stands for the magnitude `w`: `m` is `w` in units of the frame's last bit, or agrees with
it from a bit that the normalizer leaves below the guard bit, because it is far enough below the leading 1 or because the
exponent allows no left shift. -/
def StandsFor (e : Int) (m : U256) (w : ℚ) : Prop :=
  ∃ t : ℚ, w = t * 2 ^ (e - 16637) ∧
    (t = m.toNat ∨ ∃ c, AgreesFrom c m.toNat t ∧ (2 ^ (113 + c) ≤ m.toNat ∨ (e ≤ 1 ∧ c ≤ 141)))

/-- Every frame stands for its own magnitude (R109). -/
theorem standsFor_frameValue (e : Int) (m : U256) : StandsFor e m (frameValue e m) :=
  ⟨m.toNat, rfl, .inl rfl⟩

/-- A frame whose upper part is a number rounded to odd stands for that number, when it is exact, has more than 114 bits, or
is at exponent 1 or below. -/
theorem standsFor_of_roundedToOdd {e : Int} {m : U256} {n k : Nat} {t w : ℚ} (hm : m.toNat = n * 2 ^ k)
    (hn : RoundedToOdd n t) (hbig : t = n ∨ 2 ^ 114 ≤ n ∨ (e ≤ 1 ∧ k ≤ 140)) (hw : w = t * 2 ^ (e - 16637 + k)) :
    StandsFor e m w := by
  refine ⟨t * 2 ^ k, ?_, ?_⟩
  · rw [hw, zpow_add₀ two_ne_zero, zpow_natCast]
    ring
  · rcases hbig with rfl | hbig
    · left
      rw [hm]
      push_cast
      rfl
    · right
      refine ⟨1 + k, hm ▸ hn.agreesFrom.shiftLeft k, hbig.imp (fun h => ?_) (fun h => ⟨h.1, by omega⟩)⟩
      rw [hm, ← add_assoc, pow_add]
      exact Nat.mul_le_mul_right _ h

/-- A frame of which the guard bit and what stands above it are the floor of `t` at that bit, and of which the tail is its
remainder, holds `t` in the unit `t` is counted in (R134). -/
theorem holds_of_agreesFrom {f : Frame} {e : Int} {m d : Nat} {t : ℚ} (ha : AgreesFrom (141 + d) m t)
    (hexp : f.exp = e + d) (hm : f.m.toNat / 2 ^ 141 = m / 2 ^ (141 + d))
    (htail : tailBit f = false ↔ m % 2 ^ (141 + d) = 0) : Holds f (t * 2 ^ (e - 16637)) := by
  obtain ⟨hlow, hup, hex⟩ := ha
  have hv : (0 : ℚ) < 2 ^ (e - 16636) := two_zpow_pos _
  have hulp : ulp f.exp = 2 ^ (141 + d) * 2 ^ (e - 16636) := by
    rw [ulp, hexp, ← zpow_natCast, ← zpow_add₀ two_ne_zero]
    congr 1
    push_cast
    ring
  have hw : 2 * (t * 2 ^ (e - 16637)) = t * 2 ^ (e - 16636) := by
    rw [show e - 16636 = e - 16637 + 1 by ring, zpow_add_one₀ two_ne_zero]
    ring
  refine ⟨?_, ?_, ?_⟩
  · rw [hw, hulp, hm, ← mul_assoc]
    gcongr
  · rw [hw, hulp, hm, ← mul_assoc]
    gcongr
  · rw [htail, hex, hw, hulp, hm, ← mul_assoc, mul_left_inj' hv.ne']

/-- A right shift whose sticky bit is the tail of the shifted frame sees every bit below the guard bit (R104, R134). -/
theorem tailBit_eq_false_iff_of_shift {f : Frame} {m d : Nat} (hm : f.m.toNat = m / 2 ^ d)
    (hsticky : f.sticky = decide (m % 2 ^ d ≠ 0)) : tailBit f = false ↔ m % 2 ^ (141 + d) = 0 := by
  rw [tailBit_eq, Nat.add_comm, mod_two_pow_add_eq_zero_iff, hm, hsticky, and_comm]
  simp

/-- The normalizer makes a frame that stands for a magnitude into one that holds it (R131 to R134): a right shift only moves
the bit of agreement down, and a left shift stops at bit 254. -/
theorem holds_normalize {e : Int} {m : U256} {w : ℚ} (h : StandsFor e m w) :
    Holds (normalize { exp := e, m := m, sticky := false }) w := by
  obtain ⟨t, rfl, ht⟩ := h
  have hlt := normalize_lt { exp := e, m := m, sticky := false }
  have hpos := one_le_normalize_exp { exp := e, m := m, sticky := false }
  rcases normalize_shift { exp := e, m := m, sticky := false } with ⟨d, hexp, hm, hsticky⟩ | ⟨sh, hexp, hm, hsticky⟩
  · rw [Bool.false_or] at hsticky
    have ha : AgreesFrom (141 + d) m.toNat t := by
      rcases ht with rfl | ⟨c, ha, hbig⟩
      · simpa using (agreesFrom_zero m.toNat).add (141 + d)
      · have hc : c ≤ 141 + d := by
          rcases hbig with hbig | ⟨-, hc⟩
          · have : 2 ^ (113 + c) < 2 ^ (255 + d) := by
              rw [pow_add 2 255, ← Nat.div_lt_iff_lt_mul (by positivity)]
              exact (Nat.div_le_div_right hbig).trans_lt (hm ▸ hlt)
            have := (Nat.pow_lt_pow_iff_right (by norm_num)).1 this
            omega
          · omega
        convert ha.add (141 + d - c) using 1
        omega
    exact holds_of_agreesFrom ha hexp (by rw [hm, Nat.add_comm, div_two_pow_add])
      (tailBit_eq_false_iff_of_shift hm hsticky)
  · have ha : AgreesFrom 141 (m.toNat * 2 ^ sh) (t * 2 ^ sh) := by
      rcases ht with rfl | ⟨c, ha, hbig⟩
      · simpa using (agreesFrom_zero (m.toNat * 2 ^ sh)).add 141
      · have hc : c + sh ≤ 141 := by
          rcases hbig with hbig | ⟨he, hc⟩
          · have : 2 ^ (113 + c + sh) < 2 ^ 255 := by
              rw [pow_add]
              exact (Nat.mul_le_mul_right _ hbig).trans_lt (hm ▸ hlt)
            have := (Nat.pow_lt_pow_iff_right (by norm_num)).1 this
            omega
          · rw [hexp] at hpos
            dsimp only at hpos
            omega
        convert (ha.shiftLeft sh).add (141 - (c + sh)) using 1
        omega
    have hw : t * (2 : ℚ) ^ (e - 16637) = t * 2 ^ sh * 2 ^ (e - sh - 16637) := by
      rw [show e - 16637 = (sh : Int) + (e - sh - 16637) by ring, zpow_add₀ two_ne_zero, zpow_natCast, mul_assoc]
    rw [hw]
    refine holds_of_agreesFrom (d := 0) ha (by rw [hexp]; simp) (by rw [hm, Nat.add_zero]) ?_
    exact tailBit_eq_false_iff_of_shift (by simpa using hm) (by simpa [Nat.mod_one] using hsticky)

/-- `NormRoundPack` rounds the magnitude the frame stands for (R138). -/
theorem normRoundPack_rounds (mode : Rounding) (s : Bool) {e : Int} {m : U256} {w : ℚ} (hm : m ≠ 0#256)
    (h : StandsFor e m w) (hw : 0 < w) : Rounds mode (signFactor s * w) (normRoundPack mode s e m false) :=
  rounds_of_holds mode s (normalized_normalize hm) (holds_normalize h) hw

/-- Settles O26: every frame stands for its own magnitude. -/
theorem normRoundPackRoundsCorrectly : Obligations.NormRoundPackRoundsCorrectly := by
  intro mode s e m hm
  have hpos : (0 : ℚ) < m.toNat := by exact_mod_cast toNat_pos_of_ne_zero hm
  exact normRoundPack_rounds mode s hm (standsFor_frameValue e m) (mul_pos hpos (two_zpow_pos _))

end Sys2Proof.Machine
end

section
/-!
PROOFS. The integer datapath units (spec/41_datapath_units.md R101 to R114): carries, leading zeros, sticky and jammed shifts,
the limb-wise product, the two digit steps.
-/

namespace Sys2Proof.Machine

/-! ### The 256-bit sum, difference and leading-zero count (R101, R102) -/

/-- The carry out of the high limbs is the carry of the whole sum. -/
theorem add256_snd (v w : U256) : (add256 v w).2 = decide (2 ^ 256 ≤ v.toNat + w.toNat) := by
  simp only [add256, addc, hiLimb_toNat, loLimb_toNat, Bool.toNat_false, Nat.add_zero]
  rw [decide_eq_decide]
  by_cases hc : 2 ^ 128 ≤ v.toNat % 2 ^ 128 + w.toNat % 2 ^ 128
  · rw [decide_eq_true hc, Bool.toNat_true]
    omega
  · rw [decide_eq_false hc, Bool.toNat_false]
    omega

/-- The borrow out of the high limbs is the borrow of the whole difference. -/
theorem sub256_snd (v w : U256) : (sub256 v w).2 = decide (v.toNat < w.toNat) := by
  simp only [sub256, subb, hiLimb_toNat, loLimb_toNat, Bool.toNat_false, Nat.add_zero]
  rw [decide_eq_decide]
  by_cases hc : v.toNat % 2 ^ 128 < w.toNat % 2 ^ 128
  · rw [decide_eq_true hc, Bool.toNat_true]
    omega
  · rw [decide_eq_false hc, Bool.toNat_false]
    omega

theorem add256_exact (v w : U256) :
    (add256 v w).1.toNat + (add256 v w).2.toNat * 2 ^ 256 = v.toNat + w.toNat := by
  have hv := v.isLt
  have hw := w.isLt
  rw [add256_fst, add256_snd, BitVec.toNat_add]
  by_cases hc : 2 ^ 256 ≤ v.toNat + w.toNat
  · rw [decide_eq_true hc, Bool.toNat_true]
    omega
  · rw [decide_eq_false hc, Bool.toNat_false]
    omega

theorem sub256_exact (v w : U256) :
    (sub256 v w).1.toNat + w.toNat = v.toNat + (sub256 v w).2.toNat * 2 ^ 256 := by
  have hv := v.isLt
  have hw := w.isLt
  rw [sub256_fst, sub256_snd, BitVec.toNat_sub]
  by_cases hc : v.toNat < w.toNat
  · rw [decide_eq_true hc, Bool.toNat_true]
    omega
  · rw [decide_eq_false hc, Bool.toNat_false]
    omega

/-- The count of leading zeros is fixed by the place of the leading 1 (R102). -/
theorem clz_eq_of_leading {n k : Nat} {v : BitVec n} (hlow : 2 ^ k ≤ v.toNat) (hup : v.toNat < 2 ^ (k + 1)) :
    clz v = n - 1 - k := by
  have hpos : v.toNat ≠ 0 := by
    have : 0 < 2 ^ k := by positivity
    omega
  have h0 : v ≠ 0#n := fun h => hpos (by simp [h])
  rw [clz, if_neg h0, (Nat.log2_eq_iff hpos).2 ⟨hlow, hup⟩]

/-- A pattern is its two limbs, laid side by side (R100). -/
theorem toNat_eq_limbs (v : U256) : v.toNat = (hiLimb v).toNat * 2 ^ 128 + (loLimb v).toNat := by
  rw [hiLimb_toNat, loLimb_toNat]
  omega

/-- The count by limbs is the count (R102): the leading 1 stands in the high limb, or the low limb is all there is. -/
theorem clz256_eq_clz (v : U256) : clz256 v = clz v := by
  have hv := toNat_eq_limbs v
  have hlo := (loLimb v).isLt
  unfold clz256
  split_ifs with hhi
  · have hlt := clz_lt hhi
    have hlow := pow_le_of_clz hhi
    have hup := lt_pow_sub_clz (hiLimb v)
    have hscale (k : Nat) : 2 ^ (128 + k) = 2 ^ k * 2 ^ 128 := by rw [pow_add, mul_comm]
    rw [clz_eq_of_leading (v := v) (k := 128 + (128 - 1 - clz (hiLimb v)))]
    · omega
    · rw [hscale]
      omega
    · rw [show 128 + (128 - 1 - clz (hiLimb v)) + 1 = 128 + (128 - clz (hiLimb v)) by omega, hscale]
      omega
  · rw [not_not] at hhi
    rw [hhi, BitVec.toNat_ofNat, Nat.zero_mod, Nat.zero_mul, Nat.zero_add] at hv
    by_cases h0 : loLimb v = 0#128
    · have : v = 0#256 := BitVec.eq_of_toNat_eq (by rw [hv, h0]; rfl)
      rw [h0, this, clz_zero, clz_zero]
    · have hlt := clz_lt h0
      have hlow := pow_le_of_clz h0
      have hup := lt_pow_sub_clz (loLimb v)
      rw [clz_eq_of_leading (v := v) (k := 128 - 1 - clz (loLimb v)) (hv ▸ hlow)]
      · omega
      · rwa [hv, show 128 - 1 - clz (loLimb v) + 1 = 128 - clz (loLimb v) by omega]

/-- Settles O15: sum, difference and count, one lemma each. -/
theorem wideAddAndSubtractAreExact : Obligations.WideAddAndSubtractAreExact := fun v w =>
  ⟨add256_exact v w, sub256_exact v w, clz256_eq_clz v⟩

/-! ### Sticky and jammed shifts (R103 to R107) -/

/-- Settles O16: the quotients compose, and a remainder is lost in one of the two shifts exactly when it is lost at all. -/
theorem stickyShiftsAccumulate : Obligations.StickyShiftsAccumulate := by
  intro n v d1 d2
  refine Prod.ext (BitVec.eq_of_toNat_eq ?_) ?_
  · rw [srs_fst_toNat, srs_fst_toNat, srs_fst_toNat, div_two_pow_add]
  · rw [srs_snd, srs_snd, srs_snd, srs_fst_toNat, ← Bool.decide_or, decide_eq_decide, ← not_and_or, not_iff_not,
      mod_two_pow_add_eq_zero_iff]

/-- Setting bit 0 adds 1 to an even number. -/
theorem or_one_eq (n : Nat) : n ||| 1 = n + (1 - n % 2) := by
  have hdiv : (n ||| 1) / 2 = n / 2 := by simp [Nat.or_div_two]
  have hmod : (n ||| 1) % 2 = 1 := by simp [Nat.or_mod_two_eq_one]
  omega

/-- A jammed shift that loses nothing is the quotient (R105). -/
theorem jam_toNat_of_exact {n d : Nat} {v : BitVec n} (h : v.toNat % 2 ^ d = 0) :
    (jam v d).toNat = v.toNat / 2 ^ d := by
  rw [jam_eq_of_dvd v d h, srs_fst_toNat]

/-- A jammed shift that loses a bit is the floor quotient with bit 0 set (R105). -/
theorem jam_toNat_of_inexact {n d : Nat} {v : BitVec n} (h : v.toNat % 2 ^ d ≠ 0) :
    (jam v d).toNat = v.toNat / 2 ^ d + (1 - v.toNat / 2 ^ d % 2) := by
  have hn : 1 < 2 ^ n := by
    have := v.isLt
    have : v.toNat ≠ 0 := fun h0 => h (by rw [h0, Nat.zero_mod])
    omega
  have hbit : (BitVec.setWidth n (BitVec.ofBool true)).toNat = 1 := by
    rw [BitVec.toNat_setWidth, show (BitVec.ofBool true).toNat = 1 by decide, Nat.mod_eq_of_lt hn]
  rw [jam, srs_snd, decide_eq_true h, BitVec.toNat_or, srs_fst_toNat, hbit, or_one_eq]

/-- The jammed value is below an even number exactly when the exact quotient is (R105). -/
theorem jam_lt_iff {n : Nat} (v : BitVec n) (d : Nat) {k : Nat} (hk : k % 2 = 0) :
    (jam v d).toNat < k ↔ v.toNat < k * 2 ^ d := by
  rw [← Nat.div_lt_iff_lt_mul (by positivity)]
  by_cases h : v.toNat % 2 ^ d = 0
  · rw [jam_toNat_of_exact h]
  · rw [jam_toNat_of_inexact h]
    omega

/-- Settles O17: the exact and the inexact shift, and the comparison with even numbers. -/
theorem jamRoundsToOddAtBitZero : Obligations.JamRoundsToOddAtBitZero := by
  intro n v d
  refine ⟨fun h => ?_, fun h => ?_, fun k => jam_lt_iff v d⟩
  · rw [jam_toNat_of_exact h]
    exact Nat.div_mul_cancel (Nat.dvd_of_mod_eq_zero h)
  · rw [jam_toNat_of_inexact h]
    omega

/-- A lane is a multiple of 2^14, so a shift by at most 14 loses nothing of it (R106, R109). -/
theorem laneOf_mod (m : Sig) {d : Nat} (hd : d ≤ 14) : (laneOf m).toNat % 2 ^ d = 0 := by
  rw [laneOf_toNat]
  exact Nat.mod_eq_zero_of_dvd (Dvd.dvd.mul_left (pow_dvd_pow 2 hd) _)

/-- Settles O36: up to 14 the shift is exact; from 128 on the quotient is 0 and every bit of the lane is in the remainder. -/
theorem alignmentLosesNothingUpToFourteen : Obligations.AlignmentLosesNothingUpToFourteen := by
  intro m d
  refine ⟨fun hd => (jamRoundsToOddAtBitZero 128 (laneOf m) d).1 (laneOf_mod m hd), fun hd => ?_⟩
  have hlt : (laneOf m).toNat < 2 ^ d := (laneOf m).isLt.trans_le (Nat.pow_le_pow_right (by norm_num) hd)
  have hquot : (laneOf m).toNat / 2 ^ d = 0 := Nat.div_eq_of_lt hlt
  have hrem : (laneOf m).toNat % 2 ^ d = m.toNat * 2 ^ 14 := by rw [Nat.mod_eq_of_lt hlt, laneOf_toNat]
  apply BitVec.eq_of_toNat_eq
  split_ifs with h0
  · rw [align128, jam_toNat_of_exact (by rw [hrem, h0]; rfl), hquot]
    rfl
  · have hpos := toNat_pos_of_ne_zero h0
    rw [align128, jam_toNat_of_inexact (by rw [hrem]; omega), hquot]
    rfl

/-! ### The multiplier (R108) -/

theorem mul128_comm (x y : U128) : mul128 x y = mul128 y x :=
  BitVec.eq_of_toNat_eq (by rw [mul128_toNat, mul128_toNat, Nat.mul_comm])

/-- A partial product of two 64-bit digits fits a limb. -/
theorem digitProduct_toNat (u v : U64) :
    (u.setWidth 128 * v.setWidth 128 : U128).toNat = u.toNat * v.toNat := by
  have h : u.toNat * v.toNat < 2 ^ 64 * 2 ^ 64 := Nat.mul_lt_mul'' u.isLt v.isLt
  rw [BitVec.toNat_mul, BitVec.toNat_setWidth_of_le (by norm_num), BitVec.toNat_setWidth_of_le (by norm_num),
    Nat.mod_eq_of_lt (by omega)]

/-- A partial product moved up by one digit fits a frame. -/
theorem middleProduct_toNat (p : U128) : (p.setWidth 256 <<< 64 : U256).toNat = p.toNat * 2 ^ 64 := by
  have hp := p.isLt
  rw [BitVec.toNat_shiftLeft, BitVec.toNat_setWidth_of_le (by norm_num), Nat.shiftLeft_eq]
  omega

/-- The four partial products add up to the product: the schoolbook scheme in base 2^64 (R108). -/
theorem mul128Limbs_eq_mul128 (x y : U128) : mul128Limbs x y = mul128 x y := by
  apply BitVec.eq_of_toNat_eq
  have hx : x.toNat = (x.extractLsb' 64 64).toNat * 2 ^ 64 + (x.extractLsb' 0 64).toNat := by
    rw [divisorHigh_toNat, divisorLow_toNat]
    omega
  have hy : y.toNat = (y.extractLsb' 64 64).toNat * 2 ^ 64 + (y.extractLsb' 0 64).toNat := by
    rw [divisorHigh_toNat, divisorLow_toNat]
    omega
  have hprod := (mul128 x y).isLt
  rw [mul128_toNat] at hprod ⊢
  have hsum : x.toNat * y.toNat =
      (x.extractLsb' 64 64).toNat * (y.extractLsb' 64 64).toNat * 2 ^ 128 +
        (x.extractLsb' 0 64).toNat * (y.extractLsb' 0 64).toNat +
        (x.extractLsb' 64 64).toNat * (y.extractLsb' 0 64).toNat * 2 ^ 64 +
        (x.extractLsb' 0 64).toNat * (y.extractLsb' 64 64).toNat * 2 ^ 64 := by
    rw [hx, hy]
    ring
  simp only [mul128Limbs, add256_fst, BitVec.toNat_add, concat_toNat, digitProduct_toNat, middleProduct_toNat,
    Nat.mod_add_mod]
  rw [← hsum, Nat.mod_eq_of_lt hprod]

/-- Settles O18: the product is exact, so it commutes, and the limb-wise form is the same number. -/
theorem multiplierIsExact : Obligations.MultiplierIsExact := fun x y =>
  ⟨mul128_toNat x y, mul128_comm x y, mul128Limbs_eq_mul128 x y⟩

/-! ### The two digit steps of the divider (R111, R112) -/

/-- Settles O19: the general step is a floor division. -/
theorem generalDigitStepDivides : Obligations.GeneralDigitStepDivides := fun _ _ hd hu =>
  divDigitGeneral_toNat hd hu

/-- Settles O20: both steps are the same floor division. -/
theorem fastDigitStepAgreesWithTheGeneralOne : Obligations.FastDigitStepAgreesWithTheGeneralOne := by
  intro u d hd hu hlow
  obtain ⟨hq, hr⟩ := divDigitGeneral_toNat hd hu
  obtain ⟨hq', hr'⟩ := divDigitFast_toNat hu hlow
  exact Prod.ext (BitVec.eq_of_toNat_eq (hq'.trans hq.symm)) (BitVec.eq_of_toNat_eq (hr'.trans hr.symm))

end Sys2Proof.Machine
end

section
/-!
PROOFS. From a finite path's frame to the rounded result (spec/10_state.md R32, spec/42_normalize_round.md R138), and the
arithmetic of numbers rounded to odd (spec/41_datapath_units.md R105) that the finite paths share.
-/

namespace Sys2Proof.Machine

/-! ### What a finite path hands to `NormRoundPack` -/

/-- The result of a finite path, before rounding, is a nonzero frame that stands for the number `v`. -/
def Represents (o : OperationResult) (v : ℚ) : Prop :=
  ∃ (s : Bool) (e : Int) (m : U256) (w : ℚ), o = .finite s e m false ∧ m ≠ 0#256 ∧ StandsFor e m w ∧ 0 < w ∧
    v = signFactor s * w

/-- Delivering such a result rounds the number (R32, R138). -/
theorem Represents.rounds {o : OperationResult} {v : ℚ} (h : Represents o v) (mode : Rounding) :
    Rounds mode v (deliver mode o) := by
  obtain ⟨s, e, m, w, rfl, hm, hst, hw, rfl⟩ := h
  exact normRoundPack_rounds mode s hm hst hw

/-- The result of a finite path, before rounding: the zero `z` for an exact 0, else a frame that stands for the number. -/
structure Delivers (o : OperationResult) (v : ℚ) (z : Float128) : Prop where
  zero : v = 0 → o = .special z
  nonzero : v ≠ 0 → Represents o v

/-! ### Numbers rounded to odd -/

section
variable {m n : Nat} {t : ℚ}

/-- Adding an even number keeps the rounding. -/
theorem RoundedToOdd.even_add (h : RoundedToOdd m t) (hn : n % 2 = 0) : RoundedToOdd (n + m) (n + t) := by
  rcases h with rfl | ⟨hodd, hlow, hup⟩
  · exact .inl (by push_cast; rfl)
  · refine .inr ⟨by omega, ?_, ?_⟩
    · push_cast
      linarith
    · push_cast
      linarith

/-- Subtracting from an even number keeps the rounding. -/
theorem RoundedToOdd.even_sub (h : RoundedToOdd m t) (hn : n % 2 = 0) (hle : m ≤ n) :
    RoundedToOdd (n - m) (n - t) := by
  rcases h with rfl | ⟨hodd, hlow, hup⟩
  · exact .inl (by rw [Nat.cast_sub hle])
  · refine .inr ⟨by omega, ?_, ?_⟩
    · rw [Nat.cast_sub hle]
      linarith
    · rw [Nat.cast_sub hle]
      linarith

/-- Subtracting an even number keeps the rounding. -/
theorem RoundedToOdd.sub_even (h : RoundedToOdd m t) (hn : n % 2 = 0) (hle : n ≤ m) :
    RoundedToOdd (m - n) (t - n) := by
  rcases h with rfl | ⟨hodd, hlow, hup⟩
  · exact .inl (by rw [Nat.cast_sub hle])
  · refine .inr ⟨by omega, ?_, ?_⟩
    · rw [Nat.cast_sub hle]
      linarith
    · rw [Nat.cast_sub hle]
      linarith

/-- Only 0 is rounded to 0. -/
theorem RoundedToOdd.eq_zero_iff (h : RoundedToOdd m t) : m = 0 ↔ t = 0 := by
  rcases h with rfl | ⟨hodd, hlow, -⟩
  · exact Nat.cast_eq_zero.symm
  · have hm : (1 : ℚ) ≤ m := by exact_mod_cast (by omega : 1 ≤ m)
    exact ⟨fun h0 => by omega, fun h0 => by linarith⟩

theorem RoundedToOdd.nonneg (h : RoundedToOdd m t) : 0 ≤ t := by
  rcases h with rfl | ⟨hodd, hlow, -⟩
  · exact Nat.cast_nonneg m
  · have hm : (1 : ℚ) ≤ m := by exact_mod_cast (by omega : 1 ≤ m)
    linarith

end

/-- A floor quotient with its bit 0 set where the division leaves a remainder is the quotient rounded to odd. -/
theorem roundedToOdd_div (a : Nat) {b q : Nat} (hb : 0 < b)
    (hq : q = if a % b = 0 then a / b else a / b + (1 - a / b % 2)) : RoundedToOdd q ((a : ℚ) / b) := by
  have hb' : (0 : ℚ) < b := by exact_mod_cast hb
  have hsplit : (a : ℚ) = b * (a / b : Nat) + (a % b : Nat) := by exact_mod_cast (Nat.div_add_mod a b).symm
  have hr : ((a % b : Nat) : ℚ) < b := by exact_mod_cast Nat.mod_lt a hb
  have hdiv : (a : ℚ) / b = (a / b : Nat) + ((a % b : Nat) : ℚ) / b := by
    rw [eq_comm, ← sub_eq_zero, hsplit]
    field_simp
    ring
  rw [hdiv]
  split_ifs at hq with h0
  · rw [hq, h0]
    exact .inl (by simp)
  · have hr0 : (0 : ℚ) < ((a % b : Nat) : ℚ) / b := div_pos (by exact_mod_cast Nat.pos_of_ne_zero h0) hb'
    have hr1 : ((a % b : Nat) : ℚ) / b < 1 := (div_lt_one hb').2 hr
    right
    rcases Nat.mod_two_eq_zero_or_one (a / b) with hpar | hpar
    · rw [hq, hpar]
      refine ⟨by omega, ?_, ?_⟩
      · push_cast
        linarith
      · push_cast
        linarith
    · rw [hq, hpar]
      exact ⟨by omega, by simpa using by linarith, by simpa using by linarith⟩

/-- The jammed shift is the exact quotient rounded to odd (R105). -/
theorem jam_roundedToOdd {n : Nat} (v : BitVec n) (d : Nat) :
    RoundedToOdd (jam v d).toNat ((v.toNat : ℚ) / 2 ^ d) := by
  have h := roundedToOdd_div v.toNat (b := 2 ^ d) (q := (jam v d).toNat) (by positivity) (by
    split_ifs with h0
    · exact jam_toNat_of_exact h0
    · exact jam_toNat_of_inexact h0)
  push_cast at h
  exact h

/-- What has its low `j` bits 0 is jammed exactly, or by more than `j` places and then to something small (R105). -/
theorem jam_exact_or_small {n j k : Nat} {v : BitVec n} (hlow : v.toNat % 2 ^ j = 0) (hlt : v.toNat < 2 ^ k)
    (hjk : j < k) (d : Nat) : (v.toNat : ℚ) / 2 ^ d = (jam v d).toNat ∨ (jam v d).toNat < 2 ^ (k - j) := by
  by_cases hd : d ≤ j
  · left
    have hexact : v.toNat % 2 ^ d = 0 :=
      Nat.mod_eq_zero_of_dvd ((pow_dvd_pow 2 hd).trans (Nat.dvd_of_mod_eq_zero hlow))
    have hjam := (jamRoundsToOddAtBitZero n v d).1 hexact
    rw [div_eq_iff (by positivity)]
    exact_mod_cast hjam.symm
  · right
    have heven : 2 ^ (k - j) % 2 = 0 := Nat.mod_eq_zero_of_dvd (dvd_pow_self 2 (by omega))
    refine (jam_lt_iff _ _ heven).2 (hlt.trans_le ?_)
    rw [← pow_add]
    exact Nat.pow_le_pow_right (by norm_num) (by omega)

/-! ### The signed sum of two magnitudes -/

/-- The magnitude of the signed sum of two magnitudes (R171 step 4, R211 step 7). -/
def signedSum (sp sc : Bool) (p c : Nat) : Nat :=
  if sp = sc then p + c else if c ≤ p then p - c else c - p

theorem signFactor_of_ne {sp sc : Bool} (h : sp ≠ sc) : signFactor sc = -signFactor sp := by
  rw [← signFactor_not, Bool.eq_not_of_ne h.symm]

/-- The larger magnitude gives the sign, and a summand rounded to odd makes the sum rounded to odd, provided the other one
is even (R105). -/
theorem signedSum_roundedToOdd (sp sc : Bool) {p c : Nat} {tc : ℚ} (hp : p % 2 = 0) (hc : RoundedToOdd c tc) :
    ∃ t : ℚ, RoundedToOdd (signedSum sp sc p c) t ∧ (tc = c → t = signedSum sp sc p c) ∧
      signFactor sp * p + signFactor sc * tc = signFactor (if c ≤ p then sp else sc) * t := by
  unfold signedSum
  split_ifs with hs hle
  · exact ⟨p + tc, hc.even_add hp, fun h => by rw [h]; push_cast; rfl, by rw [hs]; ring⟩
  · exact ⟨p + tc, hc.even_add hp, fun h => by rw [h]; push_cast; rfl, by rw [hs]; ring⟩
  · next hle =>
    exact ⟨p - tc, hc.even_sub hp hle, fun h => by rw [h, Nat.cast_sub hle],
      by rw [signFactor_of_ne hs]; ring⟩
  · next hle =>
    have hle' := (not_le.1 hle).le
    exact ⟨tc - p, hc.sub_even hp hle', fun h => by rw [h, Nat.cast_sub hle'],
      by rw [signFactor_of_ne hs]; ring⟩

/-- A nonzero frame built on the signed sum represents the signed sum of the exact magnitudes, when the inexact one is exact
after all, far below the other one, or at exponent 1 (R171, R211). -/
theorem represents_signedSum {sp sc : Bool} {p c k : Nat} {tc v : ℚ} {e : Int} {m : U256} (hp : p % 2 = 0)
    (hc : RoundedToOdd c tc) (hm : m.toNat = signedSum sp sc p c * 2 ^ k)
    (hbig : tc = c ∨ c + 2 ^ 114 ≤ p ∨ (e ≤ 1 ∧ k ≤ 140)) (h0 : signedSum sp sc p c ≠ 0)
    (hv : v = (signFactor sp * p + signFactor sc * tc) * 2 ^ (e - 16637 + k)) :
    Represents (.finite (if c ≤ p then sp else sc) e m false) v := by
  obtain ⟨t, ht, hexact, hsum⟩ := signedSum_roundedToOdd sp sc hp hc
  have htpos : 0 < t := lt_of_le_of_ne ht.nonneg (fun h => h0 (ht.eq_zero_iff.2 h.symm))
  have hm0 : m ≠ 0#256 := by
    rintro rfl
    exact (Nat.mul_pos (Nat.pos_of_ne_zero h0) (by positivity)).ne hm
  refine ⟨_, e, m, t * 2 ^ (e - 16637 + k), rfl, hm0, ?_, mul_pos htpos (two_zpow_pos _), by rw [hv, hsum, mul_assoc]⟩
  refine standsFor_of_roundedToOdd hm ht (hbig.imp hexact (Or.imp_left fun hgap => ?_)) rfl
  unfold signedSum
  split_ifs <;> omega

/-- The signed sum is 0 exactly when the exact one is. -/
theorem signedSum_eq_zero_iff {sp sc : Bool} {p c : Nat} {tc : ℚ} (hp : p % 2 = 0) (hc : RoundedToOdd c tc) :
    signedSum sp sc p c = 0 ↔ signFactor sp * p + signFactor sc * tc = 0 := by
  obtain ⟨t, ht, -, hsum⟩ := signedSum_roundedToOdd sp sc hp hc
  rw [hsum, ht.eq_zero_iff, mul_eq_zero, or_iff_right (signFactor_ne_zero _)]

/-! ### A finite value is its own rounding -/

theorem maxFinite_lt_overflowLimit : maxFinite < overflowLimit := by
  have hu := ulp_pos 0x7FFE
  rw [maxFinite_eq, overflowLimit_eq]
  gcongr
  norm_num

theorem decide_value_neg {x : Float128} (h : isNonzeroFinite x = true) : decide (value x < 0) = signOf x := by
  cases hs : signOf x
  · simpa using (value_pos h hs).le
  · simpa using value_neg h hs

/-- Rounding a binary128 value gives it back (R138). -/
theorem rounds_self (mode : Rounding) {x : Float128} (h : isNonzeroFinite x = true) : Rounds mode (value x) x := by
  have hfin := isFinite_of_nonzeroFinite h
  have hmax := abs_value_le_maxFinite hfin
  have hsign := decide_value_neg h
  cases mode with
  | rne =>
    refine ⟨fun hov => absurd (hmax.trans_lt maxFinite_lt_overflowLimit) (not_lt.2 hov), fun _ =>
      ⟨hfin, hsign.symm, fun y _ => ?_⟩⟩
    rw [sub_self, abs_zero]
    exact ⟨abs_nonneg _, fun h0 hne => absurd (sub_eq_zero.1 (abs_eq_zero.1 h0)) hne⟩
  | ro =>
    exact ⟨hfin, hsign.symm, fun hov => absurd hmax (not_le.2 hov), fun _ => rfl, fun hne => absurd rfl (hne x hfin)⟩

/-- What rounds a binary128 value is finite and has that value (R138). -/
theorem value_of_rounds_exact {mode : Rounding} {x r : Float128} (hx : isFinite x = true)
    (h : Rounds mode (value x) r) : isFinite r = true ∧ signOf r = decide (value x < 0) ∧ value r = value x := by
  cases mode with
  | rne =>
    have hmax := (abs_value_le_maxFinite hx).trans_lt maxFinite_lt_overflowLimit
    obtain ⟨hfin, hsign, hnear⟩ := h.2 hmax
    have h0 := (hnear x hx).1
    rw [sub_self, abs_zero] at h0
    exact ⟨hfin, hsign, sub_eq_zero.1 (abs_nonpos_iff.1 h0)⟩
  | ro =>
    obtain ⟨hfin, hsign, -, hexact, -⟩ := h
    exact ⟨hfin, hsign, hexact ⟨x, hx, rfl⟩⟩

end Sys2Proof.Machine
end

section
/-!
PROOFS. ADDQ and SUBQ on finite operands (spec/44_add_sub.md R171 to R178).
-/

namespace Sys2Proof.Machine

/-- `x` is of at least the magnitude of `y`, by exponent and significand (R88). -/
structure Leads (x y : Float128) : Prop where
  exp_le : expOf y ≤ expOf x
  sig_le : expOf y = expOf x → (sigOf y).toNat ≤ (sigOf x).toNat

/-- Lexicographic order of exponent and significand (R88). -/
theorem magnitudeBelow_iff (x y : Float128) : magnitudeBelow (decompose x) (decompose y) = true ↔
    expOf x < expOf y ∨ (expOf x = expOf y ∧ (sigOf x).toNat < (sigOf y).toNat) := by
  simp only [magnitudeBelow, Bool.or_eq_true, Bool.and_eq_true, decide_eq_true_iff, BitVec.lt_def]
  rfl

/-- The order of R171 step 1 puts the leading operand first. -/
theorem leads_of_magnitudeBelow {x y : Float128} (h : magnitudeBelow (decompose x) (decompose y) = true) :
    Leads y x := by
  rw [magnitudeBelow_iff] at h
  exact ⟨by omega, by omega⟩

theorem leads_of_not_magnitudeBelow {x y : Float128} (h : ¬ magnitudeBelow (decompose x) (decompose y) = true) :
    Leads x y := by
  rw [magnitudeBelow_iff] at h
  exact ⟨by omega, by omega⟩

/-- A lane is an even number. -/
theorem laneOf_even (m : Sig) : (laneOf m).toNat % 2 = 0 :=
  laneOf_mod m (d := 1) (by norm_num)

theorem align128_roundedToOdd (r : U128) (d : Nat) : RoundedToOdd (align128 r d).toNat ((r.toNat : ℚ) / 2 ^ d) :=
  jam_roundedToOdd r d

/-- The value of an operand in the unit of a lane whose exponent is `d` higher (R109). -/
theorem value_eq_lane (x : Float128) {e : Int} {d : Nat} (he : e = expOf x + d) :
    value x = signFactor (signOf x) * (((laneOf (sigOf x)).toNat : ℚ) / 2 ^ d) * 2 ^ (e - 16637 + (128 : Nat)) := by
  have h2 : (2 : ℚ) ^ (e - 16637 + (128 : Nat)) = 2 ^ (expOf x - 16495) * 2 ^ d / 2 ^ 14 := by
    rw [eq_div_iff (by positivity), ← zpow_natCast, ← zpow_natCast, ← zpow_add₀ two_ne_zero,
      ← zpow_add₀ two_ne_zero]
    congr 1
    push_cast
    linarith
  rw [h2, laneOf_toNat, value]
  push_cast
  field_simp
  norm_num

/-- The lane of R171 step 4 for two operands, the first one leading. -/
def orderedLane (x y : Float128) : U128 :=
  if signOf x = signOf y then (addc (laneOf (sigOf x)) (align128 (laneOf (sigOf y)) (expOf x - expOf y).toNat) false).1
  else (subb (laneOf (sigOf x)) (align128 (laneOf (sigOf y)) (expOf x - expOf y).toNat) false).1

/-- R171 steps 4 and 5: a zero lane is a zero of the operands' common sign, else +0. -/
theorem addOrdered_eq (x y : Float128) : addOrdered (decompose x) (decompose y) =
    if orderedLane x y = 0#128 then .special (signedZero (signOf x && signOf y))
    else .finite (signOf x) (expOf x) (frameOfLane (orderedLane x y)) false := by
  have hsign : (if signOf x = signOf y then OperationResult.special (signedZero (signOf x))
      else .special (signedZero false)) = .special (signedZero (signOf x && signOf y)) := by
    cases signOf x <;> cases signOf y <;> rfl
  rw [← hsign]
  rfl

section Ordered

variable {x y : Float128} (hx : isFinite x = true) (h : Leads x y)
include hx h

/-- The aligned lane of the smaller operand does not exceed the lane of the leading one (R171 step 3). -/
theorem align128_le_lane :
    (align128 (laneOf (sigOf y)) (expOf x - expOf y).toNat).toNat ≤ (laneOf (sigOf x)).toNat := by
  have hlx := laneOf_toNat (sigOf x)
  have hly := laneOf_toNat (sigOf y)
  have hsy := sigOf_lt y
  have hey := one_le_expOf y
  by_cases hexp : expOf y = expOf x
  · have hsig := h.sig_le hexp
    rw [align128, hexp, sub_self, Int.toNat_zero, jam_zero, hlx, hly]
    exact Nat.mul_le_mul_right _ hsig
  · have hle := h.exp_le
    have hsx : 2 ^ 112 ≤ (sigOf x).toNat := (sigOf_ge_or_exp_one hx).resolve_right (by omega)
    have hd : 2 ^ 1 ≤ 2 ^ (expOf x - expOf y).toNat := Nat.pow_le_pow_right (by norm_num) (by omega)
    refine ((jam_lt_iff _ _ (by omega)).2 ?_).le
    calc (laneOf (sigOf y)).toNat < (laneOf (sigOf x)).toNat * 2 ^ 1 := by omega
      _ ≤ _ := Nat.mul_le_mul_left _ hd

/-- An aligned lane is exact, or lies far below the leading one (R106, R178). -/
theorem align128_exact_or_far :
    ((laneOf (sigOf y)).toNat : ℚ) / 2 ^ (expOf x - expOf y).toNat =
        (align128 (laneOf (sigOf y)) (expOf x - expOf y).toNat).toNat ∨
      (align128 (laneOf (sigOf y)) (expOf x - expOf y).toNat).toNat + 2 ^ 114 ≤ (laneOf (sigOf x)).toNat := by
  have hlx := laneOf_toNat (sigOf x)
  have hly := laneOf_toNat (sigOf y)
  have hsy := sigOf_lt y
  rcases sigOf_ge_or_exp_one hx with hsx | hex
  · refine (jam_exact_or_small (laneOf_mod _ le_rfl) (k := 127) (by omega) (by norm_num) _).imp_right fun hsmall => ?_
    rw [align128]
    omega
  · have hey := one_le_expOf y
    have hle := h.exp_le
    rw [show (expOf x - expOf y).toNat = 0 by omega, align128, jam_zero]
    exact .inl (by simp)

/-- The lane of R171 step 4 is the signed sum of the two aligned lanes: nothing is carried out or borrowed. -/
theorem orderedLane_toNat : (orderedLane x y).toNat = signedSum (signOf x) (signOf y) (laneOf (sigOf x)).toNat
    (align128 (laneOf (sigOf y)) (expOf x - expOf y).toNat).toNat := by
  have hlx := laneOf_toNat (sigOf x)
  have hsx := sigOf_lt x
  have hle := align128_le_lane hx h
  unfold orderedLane signedSum
  split_ifs
  · rw [addc_fst, BitVec.toNat_add]
    omega
  · rw [subb_fst, BitVec.toNat_sub]
    omega

omit hx in
/-- The exact sum of two operands in units of the leading lane (R109). -/
theorem value_add_eq_lanes : value x + value y = (signFactor (signOf x) * (laneOf (sigOf x)).toNat +
    signFactor (signOf y) * ((laneOf (sigOf y)).toNat / 2 ^ (expOf x - expOf y).toNat)) *
    2 ^ (expOf x - 16637 + (128 : Nat)) := by
  have hexp := h.exp_le
  rw [value_eq_lane x (e := expOf x) (d := 0) (by simp),
    value_eq_lane y (e := expOf x) (d := (expOf x - expOf y).toNat) (by omega), ← add_mul, pow_zero, div_one]

/-- The lane of R171 step 4 is 0 exactly when the exact sum is. -/
theorem orderedLane_eq_zero_iff : orderedLane x y = 0#128 ↔ value x + value y = 0 := by
  rw [value_add_eq_lanes h, mul_eq_zero, or_iff_left (two_zpow_pos _).ne',
    ← signedSum_eq_zero_iff (laneOf_even _) (align128_roundedToOdd _ _), ← orderedLane_toNat hx h]
  exact BitVec.toNat_inj.symm

/-- Steps 2 to 5 of `AddFinite` (R171), the larger operand leading: the exact sum, or the zero the signs ask for. -/
theorem addOrdered_delivers :
    Delivers (addOrdered (decompose x) (decompose y)) (value x + value y) (signedZero (signOf x && signOf y)) := by
  have hzero := orderedLane_eq_zero_iff hx h
  have hr := orderedLane_toNat hx h
  rw [addOrdered_eq]
  constructor
  · intro h0
    rw [if_pos (hzero.2 h0)]
  · intro hne
    have hs0 : signedSum (signOf x) (signOf y) _ _ ≠ 0 := fun h0 =>
      hne (hzero.1 (BitVec.eq_of_toNat_eq (hr.trans h0)))
    have hrep := represents_signedSum (laneOf_even _) (align128_roundedToOdd _ _) (by rw [frameOfLane_toNat, hr])
      ((align128_exact_or_far hx h).imp_right .inl) hs0 (value_add_eq_lanes h)
    rw [if_pos (align128_le_lane hx h)] at hrep
    rwa [if_neg (mt hzero.1 hne)]

end Ordered

/-- R171 step 1: the larger operand leads, `a` on a tie. -/
theorem addFinite_of_below {a b : Float128} (h : magnitudeBelow (decompose a) (decompose b) = true) :
    addFinite a b = addOrdered (decompose b) (decompose a) := if_pos h

theorem addFinite_of_not_below {a b : Float128} (h : ¬ magnitudeBelow (decompose a) (decompose b) = true) :
    addFinite a b = addOrdered (decompose a) (decompose b) := if_neg h

/-- `AddFinite` (R171): the exact sum, or the zero the signs ask for, whichever operand leads. -/
theorem addFinite_delivers {a b : Float128} (ha : isFinite a = true) (hb : isFinite b = true) :
    Delivers (addFinite a b) (value a + value b) (signedZero (signOf a && signOf b)) := by
  by_cases h : magnitudeBelow (decompose a) (decompose b) = true
  · rw [addFinite_of_below h, add_comm, Bool.and_comm]
    exact addOrdered_delivers hb (leads_of_magnitudeBelow h)
  · rw [addFinite_of_not_below h]
    exact addOrdered_delivers ha (leads_of_not_magnitudeBelow h)

@[simp] theorem isFinite_effective (isSub : Bool) (x : Float128) : isFinite (effective isSub x) = isFinite x := by
  cases isSub <;> simp

section
variable (mode : Rounding) {a b : Float128} (isSub : Bool) (ha : isFinite a = true) (hb : isFinite b = true)
include ha hb

/-- A nonzero sum of finite operands is rounded once (R173 to R176). -/
theorem addSub_rounds (h : value a + value (effective isSub b) ≠ 0) :
    Rounds mode (value a + value (effective isSub b)) (addSub mode a b isSub) := by
  rw [addSub_of_finite mode isSub ha hb]
  exact ((addFinite_delivers ha (by simpa using hb)).nonzero h).rounds mode

/-- An exactly zero sum of finite operands is a zero, negative when both effective operands are (R171 step 4). -/
theorem addSub_zero (h : value a + value (effective isSub b) = 0) :
    addSub mode a b isSub = signedZero (signOf a && signOf (effective isSub b)) := by
  rw [addSub_of_finite mode isSub ha hb, (addFinite_delivers ha (by simpa using hb)).zero h, deliver_special]

end

/-- Settles O27: the finite path of ADDQ represents the sum, and `NormRoundPack` rounds it. -/
theorem addDeliversTheRoundedSum : Obligations.AddDeliversTheRoundedSum := fun mode s ha hb h =>
  ⟨_, exec_add mode s, addSub_rounds mode false ha hb h⟩

/-- Settles O28: a difference is the sum with the negated operand. -/
theorem subtractDeliversTheRoundedDifference : Obligations.SubtractDeliversTheRoundedDifference := by
  intro mode s ha hb h
  have hsub : value s.a_i - value s.b_i = value s.a_i + value (effective true s.b_i) := by
    rw [effective_true, value_negate, sub_eq_add_neg]
  rw [hsub] at h ⊢
  exact ⟨_, exec_sub mode s, addSub_rounds mode true ha hb h⟩

/-- Settles O29: the zero that the finite path answers for an exactly zero sum, of the effective operands' signs. -/
theorem exactZeroSumsTakeTheCancellationSign : Obligations.ExactZeroSumsTakeTheCancellationSign := by
  intro mode s ha hb
  refine ⟨fun h => ?_, fun h => ?_⟩
  · rw [exec_add, addSub_zero mode false ha hb h, effective_false]
  · rw [exec_sub, addSub_zero mode true ha hb (by rwa [effective_true, value_negate, ← sub_eq_add_neg]), effective_true,
      signOf_negate]

end Sys2Proof.Machine
end

section
/-!
PROOFS. MULQ and DIVQ on nonzero finite operands (spec/45_multiply.md R190 to R193, spec/46_divide.md R201 to R204).
-/

namespace Sys2Proof.Machine

theorem value_eq_abs (x : Float128) : value x = signFactor (signOf x) * |value x| := by
  rw [abs_value, value, mul_assoc]

/-- The product frame of nonzero finite factors represents the exact product (R190). -/
theorem represents_product {a b : Float128} (ha : isNonzeroFinite a = true) (hb : isNonzeroFinite b = true) :
    Represents (.finite (signOf a ^^ signOf b) (productExp (expOf a) (expOf b)) (productFrame (sigOf a) (sigOf b)) false)
      (value a * value b) := by
  have hpos : 0 < (productFrame (sigOf a) (sigOf b)).toNat := by
    rw [productFrame_toNat]
    have := Nat.mul_pos (sigOf_pos_of_nonzeroFinite ha) (sigOf_pos_of_nonzeroFinite hb)
    omega
  refine ⟨_, _, _, _, rfl, fun h => ?_, standsFor_frameValue _ _, ?_, (frameValue_productFrame a b).symm⟩
  · rw [h] at hpos
    exact hpos.ne rfl
  · exact mul_pos (by exact_mod_cast hpos) (two_zpow_pos _)

theorem mulFinite_represents {a b : Float128} (ha : isNonzeroFinite a = true) (hb : isNonzeroFinite b = true) :
    Represents (mulFinite a b) (value a * value b) :=
  represents_product ha hb

theorem mul_rounds (mode : Rounding) {a b : Float128} (ha : isNonzeroFinite a = true) (hb : isNonzeroFinite b = true) :
    Rounds mode (value a * value b) (mul mode a b) := by
  rw [mul_of_nonzeroFinite mode ha hb]
  exact (mulFinite_represents ha hb).rounds mode

/-- Settles O30: the product frame is exact, and `NormRoundPack` rounds it. -/
theorem multiplyDeliversTheRoundedProduct : Obligations.MultiplyDeliversTheRoundedProduct := fun mode s ha hb =>
  ⟨_, exec_mul mode s, mul_rounds mode ha hb⟩

/-! ### Division -/

/-- The significand with its leading 1 brought to bit 112 (R201 step 1). -/
def normSig (x : Float128) : Sig :=
  sigOf x <<< clz (sigOf x)

/-- The exponent that goes with it (R201 step 1). -/
def normExp (x : Float128) : Int :=
  expOf x - clz (sigOf x)

/-- The forced quotient of two normalised significands (R201 steps 2 to 4). -/
def quotientLane (ma mb : Sig) : U128 :=
  forceOdd (div256by128 (frameOf ma) (factorOf mb)).1 (div256by128 (frameOf ma) (factorOf mb)).2

theorem divFinite_eq (a b : Float128) : divFinite a b =
    .finite (signOf a ^^ signOf b) (normExp a - normExp b + 16382)
      (frameOfLane (quotientLane (normSig a) (normSig b))) false := rfl

theorem normSig_toNat (x : Float128) : (normSig x).toNat = (sigOf x).toNat * 2 ^ clz (sigOf x) :=
  shiftLeft_toNat_of_le_clz _ _ le_rfl

theorem normSig_leading {x : Float128} (h : isNonzeroFinite x = true) : 2 ^ 112 ≤ (normSig x).toNat := by
  have h0 : sigOf x ≠ 0#113 := by
    intro h0
    have := sigOf_pos_of_nonzeroFinite h
    rw [h0] at this
    exact this.ne rfl
  have hclz := clz_lt h0
  calc 2 ^ 112 = 2 ^ (113 - 1 - clz (sigOf x)) * 2 ^ clz (sigOf x) := by rw [← pow_add]; congr 1; omega
    _ ≤ (sigOf x).toNat * 2 ^ clz (sigOf x) := Nat.mul_le_mul_right _ (pow_le_of_clz h0)
    _ = (normSig x).toNat := (normSig_toNat x).symm

/-- Normalising an operand keeps its magnitude (R201 step 1). -/
theorem abs_value_eq_normSig (x : Float128) : |value x| = ((normSig x).toNat : ℚ) * 2 ^ (normExp x - 16495) := by
  rw [abs_value, normSig_toNat x, normExp,
    show expOf x - 16495 = (clz (sigOf x) : Int) + (expOf x - clz (sigOf x) - 16495) by ring,
    zpow_add₀ two_ne_zero, zpow_natCast]
  push_cast
  ring

/-- Step 4 of R201 rounds the quotient to odd: a nonzero remainder sets bit 0. -/
theorem forceOdd_roundedToOdd {n : Nat} {d q r : U128} (hd : 0 < d.toNat) (hq : q.toNat = n / d.toNat)
    (hr : r.toNat = n % d.toNat) : RoundedToOdd (forceOdd q r).toNat ((n : ℚ) / d.toNat) := by
  refine roundedToOdd_div n hd ?_
  have hzero : r = 0#128 ↔ n % d.toNat = 0 := by
    rw [← hr]
    exact BitVec.toNat_inj.symm
  unfold forceOdd
  rw [if_congr hzero rfl rfl]
  split_ifs
  · exact hq
  · rw [BitVec.toNat_or, hq]
    exact or_one_eq _

section
variable {ma mb : Sig} (ha : 2 ^ 112 ≤ ma.toNat) (hb : 2 ^ 112 ≤ mb.toNat)
include ha hb

/-- Normalised significands are within the divider's precondition (R110, R201 step 2). -/
theorem significandDivision_toNat :
    (div256by128 (frameOf ma) (factorOf mb)).1.toNat = (frameOf ma).toNat / (factorOf mb).toNat ∧
    (div256by128 (frameOf ma) (factorOf mb)).2.toNat = (frameOf ma).toNat % (factorOf mb).toNat := by
  have hma := ma.isLt
  have hn := frameOf_toNat ma
  have hd := factorOf_toNat mb
  exact div256by128_toNat (by omega) (by omega)

/-- The forced quotient is the exact quotient, in units of 2^-127, rounded to odd (R201). -/
theorem quotientLane_roundedToOdd :
    RoundedToOdd (quotientLane ma mb).toNat ((ma.toNat : ℚ) / mb.toNat * 2 ^ 127) := by
  obtain ⟨hq, hr⟩ := significandDivision_toNat ha hb
  have hd := factorOf_toNat mb
  have hmb : (mb.toNat : ℚ) ≠ 0 := by exact_mod_cast (by omega : mb.toNat ≠ 0)
  have hvalue : ((frameOf ma).toNat : ℚ) / (factorOf mb).toNat = ma.toNat / mb.toNat * 2 ^ 127 := by
    rw [frameOf_toNat, hd]
    push_cast
    field_simp
    norm_num
  exact hvalue ▸ forceOdd_roundedToOdd (by omega) hq hr

/-- The forced quotient has its leading 1 at bit 126 or 127, far above the bit that was forced (R201). -/
theorem quotientLane_large : 2 ^ 114 ≤ (quotientLane ma mb).toNat := by
  have hmb := mb.isLt
  have hn := frameOf_toNat ma
  have hd := factorOf_toNat mb
  have hlow : 2 ^ 114 ≤ (frameOf ma).toNat / (factorOf mb).toNat := by
    rw [Nat.le_div_iff_mul_le (by omega)]
    omega
  rw [← (significandDivision_toNat ha hb).1] at hlow
  unfold quotientLane forceOdd
  split_ifs
  · exact hlow
  · rw [BitVec.toNat_or]
    exact hlow.trans Nat.left_le_or

end

/-- The sign of a quotient (R155, R201). -/
theorem value_div_eq_abs (a b : Float128) :
    value a / value b = signFactor (signOf a ^^ signOf b) * |value a / value b| := by
  have hsign : signFactor (signOf a) / signFactor (signOf b) = signFactor (signOf a ^^ signOf b) := by
    rw [div_eq_iff (signFactor_ne_zero _), signFactor_xor, mul_assoc, signFactor_mul_self, mul_one]
  rw [abs_div, ← hsign, ← mul_div_mul_comm, ← value_eq_abs, ← value_eq_abs]

/-- `DivFinite` represents the exact quotient (R201). -/
theorem divFinite_represents {a b : Float128} (ha : isNonzeroFinite a = true) (hb : isNonzeroFinite b = true) :
    Represents (divFinite a b) (value a / value b) := by
  have hsa := normSig_leading ha
  have hsb := normSig_leading hb
  have hbig := quotientLane_large hsa hsb
  have hframe := frameOfLane_toNat (quotientLane (normSig a) (normSig b))
  have hne : value a / value b ≠ 0 :=
    div_ne_zero (value_ne_zero_of_nonzeroFinite ha) (value_ne_zero_of_nonzeroFinite hb)
  have hvalue : |value a / value b| = ((normSig a).toNat : ℚ) / (normSig b).toNat * 2 ^ 127 *
      2 ^ (normExp a - normExp b + 16382 - 16637 + (128 : Nat)) := by
    have hexp : (2 : ℚ) ^ (normExp a - 16495) / 2 ^ (normExp b - 16495) =
        2 ^ 127 * 2 ^ (normExp a - normExp b + 16382 - 16637 + (128 : Nat)) := by
      rw [← zpow_sub₀ two_ne_zero, ← zpow_natCast, ← zpow_add₀ two_ne_zero]
      congr 1
      push_cast
      ring
    rw [abs_div, abs_value_eq_normSig, abs_value_eq_normSig, mul_div_mul_comm, hexp, mul_assoc]
  rw [divFinite_eq]
  refine ⟨_, _, _, |value a / value b|, rfl, fun h0 => ?_, ?_, abs_pos.2 hne, value_div_eq_abs a b⟩
  · rw [h0] at hframe
    exact (Nat.mul_pos (by omega) (by positivity)).ne hframe
  · exact standsFor_of_roundedToOdd hframe (quotientLane_roundedToOdd hsa hsb) (.inr (.inl hbig)) hvalue

theorem div_rounds (mode : Rounding) {a b : Float128} (ha : isNonzeroFinite a = true) (hb : isNonzeroFinite b = true) :
    Rounds mode (value a / value b) (div mode a b) := by
  rw [div_of_nonzeroFinite mode ha hb]
  exact (divFinite_represents ha hb).rounds mode

/-- Settles O31: the forced quotient stands for the exact one, and `NormRoundPack` rounds it. -/
theorem divideDeliversTheRoundedQuotient : Obligations.DivideDeliversTheRoundedQuotient := fun mode s ha hb =>
  ⟨_, exec_div mode s, div_rounds mode ha hb⟩

end Sys2Proof.Machine
end

section
/-!
PROOFS. FMAQ and FMSQ on finite operands (spec/47_fma.md R211 to R217, spec/43_special_values.md R156).
-/

namespace Sys2Proof.Machine

/-! ### Combining the aligned frames (R211 steps 6 to 9) -/

/-- The two frames of R211 step 6 may be named in either order: on a tie the signs agree or nothing is left. -/
theorem fmaCombine_comm (sp sc : Bool) (e : Int) (p c : U256) : fmaCombine sp sc e p c = fmaCombine sc sp e c p := by
  unfold fmaCombine
  simp only [BitVec.le_def]
  rcases lt_trichotomy p.toNat c.toNat with h | h | h
  · simp [h.le, not_le.2 h, eq_comm (a := sp)]
  · obtain rfl := BitVec.eq_of_toNat_eq h
    by_cases hs : sp = sc
    · simp [hs]
    · simp [hs, Ne.symm hs]
  · simp [h.le, not_le.2 h, eq_comm (a := sp)]

/-- The frame of R211 step 7. -/
def combinedFrame (sp sc : Bool) (p c : U256) : U256 :=
  if sp = sc then (add256 (if c ≤ p then p else c) (if c ≤ p then c else p)).1
  else (sub256 (if c ≤ p then p else c) (if c ≤ p then c else p)).1

theorem fmaCombine_eq (sp sc : Bool) (e : Int) (p c : U256) : fmaCombine sp sc e p c =
    if combinedFrame sp sc p c = 0#256 then .special (signedZero false)
    else .finite (if c.toNat ≤ p.toNat then sp else sc) e (combinedFrame sp sc p c) false := rfl

/-- With the carry bit of both frames clear the combined frame is their signed sum. -/
theorem combinedFrame_toNat {p c : U256} (sp sc : Bool) (hp : p.toNat < 2 ^ 255) (hc : c.toNat < 2 ^ 255) :
    (combinedFrame sp sc p c).toNat = signedSum sp sc p.toNat c.toNat := by
  unfold combinedFrame signedSum
  simp only [BitVec.le_def]
  split_ifs
  · rw [add256_fst, BitVec.toNat_add]
    omega
  · rw [add256_fst, BitVec.toNat_add]
    omega
  · rw [sub256_fst, BitVec.toNat_sub]
    omega
  · rw [sub256_fst, BitVec.toNat_sub]
    omega

/-- Combining an exact even frame with one rounded to odd delivers the exact sum, when the latter is exact after all, far below
the former, or at exponent 1. -/
theorem fmaCombine_delivers {sp sc : Bool} {e : Int} {p c : U256} {tc v : ℚ} (hp : p.toNat < 2 ^ 255)
    (hc : c.toNat < 2 ^ 255) (heven : p.toNat % 2 = 0) (hround : RoundedToOdd c.toNat tc)
    (hbig : tc = c.toNat ∨ c.toNat + 2 ^ 114 ≤ p.toNat ∨ e ≤ 1)
    (hv : v = (signFactor sp * p.toNat + signFactor sc * tc) * 2 ^ (e - 16637)) :
    Delivers (fmaCombine sp sc e p c) v (signedZero false) := by
  have hr := combinedFrame_toNat sp sc hp hc
  have hzero : combinedFrame sp sc p c = 0#256 ↔ v = 0 := by
    rw [hv, mul_eq_zero, or_iff_left (two_zpow_pos _).ne', ← signedSum_eq_zero_iff heven hround, ← hr]
    exact BitVec.toNat_inj.symm
  rw [fmaCombine_eq]
  constructor
  · intro h0
    rw [if_pos (hzero.2 h0)]
  · intro hne
    have hs0 : signedSum sp sc p.toNat c.toNat ≠ 0 := fun h0 => hne (hzero.1 (BitVec.eq_of_toNat_eq (hr.trans h0)))
    rw [if_neg (mt hzero.1 hne)]
    exact represents_signedSum (k := 0) heven hround (by rw [hr, pow_zero, mul_one])
      (hbig.imp_right (Or.imp_right fun he => ⟨he, by norm_num⟩)) hs0 (by rw [hv, Nat.cast_zero, add_zero])

/-! ### Aligning (R211 step 5) -/

/-- An aligned frame below bit 255 stays there (R107). -/
theorem align256_lt {m : U256} (hm : m.toNat < 2 ^ 255) (d : Nat) : (align256 m d).toNat < 2 ^ 255 :=
  (jam_lt_iff _ _ (by norm_num)).2 (hm.trans_le (Nat.le_mul_of_pos_right _ (by positivity)))

/-- Aligning moves the unit, not the magnitude (R107). -/
theorem frameValue_aligned (m : U256) {e e' : Int} (h : e ≤ e') :
    (m.toNat : ℚ) / 2 ^ (e' - e).toNat * 2 ^ (e' - 16637) = frameValue e m := by
  obtain ⟨d, rfl⟩ := Int.le.dest h
  rw [frameValue, add_sub_cancel_left, Int.toNat_natCast, show e + (d : Int) - 16637 = (d : Int) + (e - 16637) by ring,
    zpow_add₀ two_ne_zero, zpow_natCast]
  field_simp

/-- What R211 knows of the product frame and the addend's frame when it aligns them. -/
structure FusedFrames (ep ec : Int) (p c : U256) : Prop where
  product_lt : p.toNat < 2 ^ 255
  product_low : p.toNat % 2 ^ 29 = 0
  product_large : 1 < ep → 2 ^ 142 ≤ p.toNat
  addend_lt : c.toNat < 2 ^ 255
  addend_low : c.toNat % 2 ^ 142 = 0
  addend_large : 1 < ec → 2 ^ 254 ≤ c.toNat

/-- The aligned frames deliver the exact sum of product and addend (R211 steps 5 to 9). -/
theorem fmaAlign_delivers {sp sc : Bool} {ep ec : Int} {p c : U256} (h : FusedFrames ep ec p c) :
    Delivers (fmaAlign sp sc ep ec p c) (signFactor sp * frameValue ep p + signFactor sc * frameValue ec c)
      (signedZero false) := by
  obtain ⟨hp, hplow, hpbig, hc, hclow, hcbig⟩ := h
  unfold fmaAlign
  split_ifs with hle
  · -- the addend moves down to the product's exponent
    refine fmaCombine_delivers hp (align256_lt hc _) (by omega) (jam_roundedToOdd c _) ?_ ?_
    · rcases jam_exact_or_small hclow hc (by norm_num) (ep - ec).toNat with hexact | hsmall
      · exact .inl hexact
      · by_cases he : ep ≤ 1
        · exact .inr (.inr he)
        · have := hpbig (by omega)
          exact .inr (.inl (by rw [align256]; omega))
    · rw [add_mul, mul_assoc, mul_assoc, frameValue_aligned c hle]
      rfl
  · -- the product moves down to the addend's exponent
    rw [fmaCombine_comm]
    refine fmaCombine_delivers hc (align256_lt hp _) (by omega) (jam_roundedToOdd p _) ?_ ?_
    · rcases jam_exact_or_small hplow hp (by norm_num) (ec - ep).toNat with hexact | hsmall
      · exact .inl hexact
      · by_cases he : ec ≤ 1
        · exact .inr (.inr he)
        · have := hcbig (by omega)
          exact .inr (.inl (by rw [align256]; omega))
    · rw [add_mul, mul_assoc, mul_assoc, frameValue_aligned p (not_le.1 hle).le, add_comm]
      rfl

/-! ### The fused finite path (R211) -/

/-- The addend's frame stands for its magnitude (R109). -/
theorem frameValue_addend (c : Float128) : frameValue (expOf c) (frameOf (sigOf c)) = |value c| := by
  rw [abs_value, frameValue, frameOf_toNat, show expOf c - 16495 = (142 : Nat) + (expOf c - 16637) by push_cast; ring,
    zpow_add₀ two_ne_zero, zpow_natCast]
  push_cast
  ring

section
variable {a b c : Float128} (ha : isNonzeroFinite a = true) (hb : isNonzeroFinite b = true)

include ha hb in
/-- A product of exponent above 1 has a normal factor, so its frame is not small (R190). -/
theorem productFrame_large (h : 1 < productExp (expOf a) (expOf b)) :
    2 ^ 142 ≤ (productFrame (sigOf a) (sigOf b)).toNat := by
  have hpa := sigOf_pos_of_nonzeroFinite ha
  have hpb := sigOf_pos_of_nonzeroFinite hb
  have hprod : 2 ^ 112 ≤ (sigOf a).toNat * (sigOf b).toNat := by
    rcases sigOf_ge_or_exp_one (isFinite_of_nonzeroFinite ha) with hsa | hea
    · exact hsa.trans (Nat.le_mul_of_pos_right _ hpb)
    · rcases sigOf_ge_or_exp_one (isFinite_of_nonzeroFinite hb) with hsb | heb
      · exact hsb.trans (Nat.le_mul_of_pos_left _ hpa)
      · rw [productExp, hea, heb, Config.bias] at h
        norm_num at h
  rw [productFrame_toNat]
  omega

include ha hb in
/-- After the product's own carry step the frames are as the alignment needs them (R211 steps 1 to 4). -/
theorem fmaFinite_eq_align (hc : isFinite c = true) (hz : cls c ≠ .zero) :
    ∃ (ep : Int) (p : U256), FusedFrames ep (expOf c) p (frameOf (sigOf c)) ∧
      frameValue ep p = frameValue (productExp (expOf a) (expOf b)) (productFrame (sigOf a) (sigOf b)) ∧
      fmaFinite a b c = fmaAlign (signOf a ^^ signOf b) (signOf c) ep (expOf c) p (frameOf (sigOf c)) := by
  have hsc := sigOf_lt c
  have hframe := frameOf_toNat (sigOf c)
  have haddend : 1 < expOf c → 2 ^ 254 ≤ (frameOf (sigOf c)).toNat := fun he => by
    have := (sigOf_ge_or_exp_one hc).resolve_right (by omega)
    omega
  have hp := productFrame_toNat (sigOf a) (sigOf b)
  have hplt := (productFrame (sigOf a) (sigOf b)).isLt
  have hlarge := productFrame_large ha hb
  have hbit := bit255_eq (productFrame (sigOf a) (sigOf b))
  have heq : fmaFinite a b c = if (productFrame (sigOf a) (sigOf b)).getLsbD 255 then
      fmaAlign (signOf a ^^ signOf b) (signOf c) (productExp (expOf a) (expOf b) + 1) (expOf c)
        (productFrame (sigOf a) (sigOf b) >>> 1) (frameOf (sigOf c))
    else fmaAlign (signOf a ^^ signOf b) (signOf c) (productExp (expOf a) (expOf b)) (expOf c)
        (productFrame (sigOf a) (sigOf b)) (frameOf (sigOf c)) := if_neg hz
  generalize productFrame (sigOf a) (sigOf b) = p at *
  by_cases hcarry : 2 ^ 255 ≤ p.toNat
  · rw [hbit, if_pos (decide_eq_true hcarry)] at heq
    have hhalf : (p >>> 1).toNat = p.toNat / 2 := by simp [Nat.shiftRight_eq_div_pow]
    exact ⟨_, _, ⟨by omega, by omega, fun _ => by omega, by omega, by omega, haddend⟩,
      frameValue_shift_right (d := 1) rfl (by omega), heq⟩
  · rw [hbit, if_neg (by simpa using hcarry)] at heq
    exact ⟨_, _, ⟨by omega, by omega, hlarge, by omega, by omega, haddend⟩, rfl, heq⟩

include ha hb in
/-- The fused finite path delivers the exact sum of product and addend, +0 when it cancels (R211). -/
theorem fmaFinite_delivers (hc : isFinite c = true) :
    Delivers (fmaFinite a b c) (value a * value b + value c) (signedZero false) := by
  by_cases hz : cls c = .zero
  · have heq : fmaFinite a b c = mulFinite a b := if_pos hz
    have hprod : value a * value b ≠ 0 :=
      mul_ne_zero (value_ne_zero_of_nonzeroFinite ha) (value_ne_zero_of_nonzeroFinite hb)
    rw [heq, value_of_zero ((isZero_iff_cls c).2 hz), add_zero]
    exact ⟨fun h0 => absurd h0 hprod, fun _ => mulFinite_represents ha hb⟩
  · obtain ⟨ep, p, hframes, hvalue, heq⟩ := fmaFinite_eq_align ha hb hc hz
    rw [heq, ← frameValue_productFrame, ← hvalue, value_eq_abs c, ← frameValue_addend]
    exact fmaAlign_delivers hframes

end

/-! ### Zero products (R156), and the fused operations on all finite operands -/

section
variable {a b c : Float128}

/-- A zero product of finite operands leaves the effective addend, or the zero the signs ask for (R156). -/
theorem resolveFma_zero_product (isSub : Bool) (ha : isFinite a = true) (hb : isFinite b = true)
    (hc : isFinite c = true) (hz : isZero a = true ∨ isZero b = true) :
    resolveFma a b c isSub =
      some (if isZero c then signedZero ((signOf a ^^ signOf b) && signOf (effective isSub c)) else effective isSub c) := by
  have hzc : isZero (effective isSub c) = isZero c := by cases isSub <;> simp
  have hsign (s t : Bool) : (if s = t then some (signedZero s) else some (signedZero false)) =
      some (signedZero (s && t)) := by
    cases s <;> cases t <;> rfl
  have hz' : (isZero a || isZero b) = true := Bool.or_eq_true_iff.2 hz
  simp only [resolveFma, isNaN_of_finite ha, isNaN_of_finite hb, isNaN_of_finite hc, isInf_of_finite ha,
    isInf_of_finite hb, isInf_effective, isInf_of_finite hc, hz', hzc, hsign, Bool.or_self, Bool.false_and,
    Bool.true_and, Bool.false_eq_true, if_false, if_true]
  cases isZero c <;> rfl

theorem value_mul_of_zero (hz : isZero a = true ∨ isZero b = true) : value a * value b = 0 := by
  rcases hz with h | h
  · rw [value_of_zero h, zero_mul]
  · rw [value_of_zero h, mul_zero]

/-- A nonzero product and an addend that cancel are not both negative (R211 step 8). -/
theorem sign_and_eq_false_of_cancel (ha : isNonzeroFinite a = true) (hb : isNonzeroFinite b = true)
    (h : value a * value b + value c = 0) : ((signOf a ^^ signOf b) && signOf c) = false := by
  by_contra hneg
  obtain ⟨hp, hc⟩ := Bool.and_eq_true_iff.1 (Bool.not_eq_false _ ▸ hneg)
  have hprod : value a * value b = -(|value a| * |value b|) := by
    rw [value_eq_abs a, value_eq_abs b, mul_mul_mul_comm, ← signFactor_xor, hp, abs_mul, abs_mul, abs_signFactor,
      abs_signFactor, abs_abs, abs_abs, signFactor]
    simp
  have haddend : value c = -|value c| := by
    conv_lhs => rw [value_eq_abs c, hc, signFactor]
    simp
  have hpos : 0 < |value a| * |value b| :=
    mul_pos (abs_pos.2 (value_ne_zero_of_nonzeroFinite ha)) (abs_pos.2 (value_ne_zero_of_nonzeroFinite hb))
  have := abs_nonneg (value c)
  linarith

/-- Finite operands make a zero product or two nonzero factors. -/
theorem zero_or_nonzeroFinite (ha : isFinite a = true) (hb : isFinite b = true) :
    (isZero a = true ∨ isZero b = true) ∨ (isNonzeroFinite a = true ∧ isNonzeroFinite b = true) := by
  cases hza : isZero a
  · cases hzb : isZero b
    · exact .inr ⟨isNonzeroFinite_of_finite ha hza, isNonzeroFinite_of_finite hb hzb⟩
    · exact .inl (.inr rfl)
  · exact .inl (.inl rfl)

end

section
variable (mode : Rounding) {a b c : Float128} (isSub : Bool) (ha : isFinite a = true) (hb : isFinite b = true)
  (hc : isFinite c = true)
include ha hb hc

/-- A nonzero `a * b + c` of finite operands is rounded once (R213 to R216). -/
theorem fma_rounds (h : value a * value b + value (effective isSub c) ≠ 0) :
    Rounds mode (value a * value b + value (effective isSub c)) (fma mode a b c isSub) := by
  have hc' : isFinite (effective isSub c) = true := by rwa [isFinite_effective]
  rcases zero_or_nonzeroFinite ha hb with hz | ⟨hna, hnb⟩
  · rw [value_mul_of_zero hz, zero_add] at h ⊢
    have hzc' : isZero (effective isSub c) = false := by
      by_contra hzc
      exact h (value_of_zero (by simpa using hzc))
    have hzc : isZero c = false := by cases isSub <;> simpa using hzc'
    rw [fma_of_resolve mode (resolveFma_zero_product isSub ha hb hc hz), hzc]
    exact rounds_self mode (isNonzeroFinite_of_finite hc' hzc')
  · rw [fma_of_finite mode isSub hna hnb hc]
    exact ((fmaFinite_delivers hna hnb hc').nonzero h).rounds mode

/-- An exactly zero `a * b + c` of finite operands is a zero, negative when product and effective addend are (R156, R211
step 8). -/
theorem fma_zero (h : value a * value b + value (effective isSub c) = 0) :
    fma mode a b c isSub = signedZero ((signOf a ^^ signOf b) && signOf (effective isSub c)) := by
  have hc' : isFinite (effective isSub c) = true := by rwa [isFinite_effective]
  rcases zero_or_nonzeroFinite ha hb with hz | ⟨hna, hnb⟩
  · rw [value_mul_of_zero hz, zero_add] at h
    have hzc' : isZero (effective isSub c) = true := by
      by_contra hzc
      exact value_ne_zero_of_nonzeroFinite (isNonzeroFinite_of_finite hc' (by simpa using hzc)) h
    have hzc : isZero c = true := by cases isSub <;> simpa using hzc'
    rw [fma_of_resolve mode (resolveFma_zero_product isSub ha hb hc hz), hzc, if_pos rfl]
  · have hsign := sign_and_eq_false_of_cancel hna hnb h
    rw [fma_of_finite mode isSub hna hnb hc, (fmaFinite_delivers hna hnb hc').zero h, deliver_special, hsign]

end

/-- Settles O32: the fused path represents the exact `a * b + c`, and `NormRoundPack` rounds it once. -/
theorem fusedAddRoundsOnce : Obligations.FusedAddRoundsOnce := fun mode s ha hb hc h =>
  ⟨_, exec_fma mode s, fma_rounds mode false ha hb hc h⟩

theorem sub_value_eq_add_effective (v : ℚ) (c : Float128) : v - value c = v + value (effective true c) := by
  rw [effective_true, value_negate, sub_eq_add_neg]

/-- Settles O33: subtracting the addend is adding the negated one. -/
theorem fusedSubtractRoundsOnce : Obligations.FusedSubtractRoundsOnce := by
  intro mode s ha hb hc h
  rw [sub_value_eq_add_effective] at h ⊢
  exact ⟨_, exec_fms mode s, fma_rounds mode true ha hb hc h⟩

/-- Settles O34: the zero that the fused path or the resolver answers, of the effective addend's sign. -/
theorem exactZeroFusedResultsTakeTheCancellationSign : Obligations.ExactZeroFusedResultsTakeTheCancellationSign := by
  intro mode s ha hb hc
  refine ⟨fun h => ?_, fun h => ?_⟩
  · rw [exec_fma, fma_zero mode false ha hb hc h, effective_false]
  · rw [exec_fms, fma_zero mode true ha hb hc (by rwa [sub_value_eq_add_effective] at h), effective_true, signOf_negate]

end Sys2Proof.Machine
end

section
/-!
PROOFS. DIVQ, FMAQ and FMSQ on infinities and zeros, and the independence of special results from the policy
(spec/43_special_values.md R150, R155, R156).
-/

namespace Sys2Proof.Machine

/-! ### Division (R155) -/

section
variable {a b : Float128}

/-- Inf / Inf and 0 / 0 are invalid. -/
theorem resolveDiv_invalid (h : isInf a = true ∧ isInf b = true ∨ isZero a = true ∧ isZero b = true) :
    resolveDiv a b = some defaultQNaN := by
  rcases h with ⟨ha, hb⟩ | ⟨ha, hb⟩
  · simp [resolveDiv, isNaN_of_inf ha, isNaN_of_inf hb, ha, hb]
  · have hfa := isFinite_of_zero ha
    have hfb := isFinite_of_zero hb
    simp [resolveDiv, isNaN_of_finite hfa, isNaN_of_finite hfb, isInf_of_finite hfa, isInf_of_finite hfb, ha, hb]

/-- An infinity over a finite divisor is a signed infinity. -/
theorem resolveDiv_inf_finite (ha : isInf a = true) (hb : isFinite b = true) :
    resolveDiv a b = some (signedInf (signOf a ^^ signOf b)) := by
  simp [resolveDiv, isNaN_of_inf ha, isNaN_of_finite hb, ha, isInf_of_finite hb]

/-- A finite dividend over an infinity is a signed zero. -/
theorem resolveDiv_finite_inf (ha : isFinite a = true) (hb : isInf b = true) :
    resolveDiv a b = some (signedZero (signOf a ^^ signOf b)) := by
  simp [resolveDiv, isNaN_of_finite ha, isNaN_of_inf hb, isInf_of_finite ha, hb]

/-- A nonzero finite dividend over a zero is a signed infinity. -/
theorem resolveDiv_by_zero (ha : isNonzeroFinite a = true) (hb : isZero b = true) :
    resolveDiv a b = some (signedInf (signOf a ^^ signOf b)) := by
  have hfa := isFinite_of_nonzeroFinite ha
  have hfb := isFinite_of_zero hb
  simp [resolveDiv, isNaN_of_finite hfa, isNaN_of_finite hfb, isInf_of_finite hfa, isInf_of_finite hfb,
    isZero_of_nonzeroFinite ha, hb]

/-- A zero over a nonzero finite divisor is a signed zero (decision D12). -/
theorem resolveDiv_zero_dividend (ha : isZero a = true) (hb : isNonzeroFinite b = true) :
    resolveDiv a b = some (signedZero (signOf a ^^ signOf b)) := by
  have hfa := isFinite_of_zero ha
  have hfb := isFinite_of_nonzeroFinite hb
  simp [resolveDiv, isNaN_of_finite hfa, isNaN_of_finite hfb, isInf_of_finite hfa, isInf_of_finite hfb, ha,
    isZero_of_nonzeroFinite hb]

end

/-- Settles O41: each clause is one answer of `resolveDiv`. -/
theorem divideOfInfinitiesAndZeros : Obligations.DivideOfInfinitiesAndZeros := by
  intro mode s _ _ i sx
  have hexec {v : Float128} (h : resolveDiv s.a_i s.b_i = some v) : exec i s = .next (s.respond v) :=
    exec_of_resolve (f := .div) mode h
  exact ⟨fun ha hb => hexec (resolveDiv_invalid (.inl ⟨ha, hb⟩)), fun ha hb => hexec (resolveDiv_inf_finite ha hb),
    fun ha hb => hexec (resolveDiv_finite_inf ha hb), fun ha hb => hexec (resolveDiv_invalid (.inr ⟨ha, hb⟩)),
    fun ha hb => hexec (resolveDiv_by_zero ha hb), fun ha hb => hexec (resolveDiv_zero_dividend ha hb)⟩

/-! ### The fused operations (R156) -/

section
variable {a b c : Float128} (isSub : Bool) (ha : isNaN a = false) (hb : isNaN b = false)
include ha hb

/-- Inf x 0 is invalid, whatever the addend (decision D15). -/
theorem resolveFma_invalid_product (hp : invalidProduct a b = true) : resolveFma a b c isSub = some defaultQNaN := by
  rw [invalidProduct] at hp
  simp [resolveFma, ha, hb, hp]

variable (hc : isNaN c = false)
include hc

/-- An infinite product meets the addend: an infinity of the other effective sign makes it invalid. -/
theorem resolveFma_inf_product (hp : invalidProduct a b = false) (hi : isInf a = true ∨ isInf b = true) :
    resolveFma a b c isSub =
      some (if isInf c = true ∧ signOf (effective isSub c) ≠ (signOf a ^^ signOf b) then defaultQNaN
        else signedInf (signOf a ^^ signOf b)) := by
  rw [invalidProduct] at hp
  have hi' : (isInf a || isInf b) = true := Bool.or_eq_true_iff.2 hi
  rw [hi', Bool.true_and] at hp
  simp only [resolveFma, ha, hb, hc, hi', hp, isInf_effective, Bool.and_false, Bool.false_eq_true, if_false, if_true,
    Bool.and_eq_true, bne_iff_ne]
  split_ifs <;> rfl

/-- A finite product leaves an infinite effective addend. -/
theorem resolveFma_inf_addend (hia : isInf a = false) (hib : isInf b = false) (hic : isInf c = true) :
    resolveFma a b c isSub = some (effective isSub c) := by
  simp [resolveFma, ha, hb, hc, hia, hib, hic]

end

/-- Settles O42: each clause is one answer of `resolveFma`, which FMAQ and FMSQ share. -/
theorem fusedOperationsOfInfinitiesAndZeros : Obligations.FusedOperationsOfInfinitiesAndZeros := by
  intro mode isSub s ha hb i c' sp
  have hexec {v : Float128} (h : resolveFma s.a_i s.b_i s.c_i isSub = some v) : exec i s = .next (s.respond v) := by
    cases isSub
    · exact exec_of_resolve (f := .fma) mode h
    · exact exec_of_resolve (f := .fms) mode h
  refine ⟨fun hp => hexec (resolveFma_invalid_product isSub ha hb hp), fun hp hc => ⟨fun hi hic hs => hexec ?_,
    fun hi hs => hexec ?_, fun hia hib hic => hexec (resolveFma_inf_addend isSub ha hb hc hia hib hic),
    fun hz hia hib hnc => hexec ?_⟩⟩
  · rw [resolveFma_inf_product isSub ha hb hc hp hi]
    exact congrArg some (if_pos ⟨hic, hs⟩)
  · rw [resolveFma_inf_product isSub ha hb hc hp hi]
    refine congrArg some (if_neg fun h => ?_)
    rcases hs with hs | hs
    · exact Bool.false_ne_true (hs.symm.trans h.1)
    · exact h.2 hs
  · rw [resolveFma_zero_product isSub (isFinite_of_not_special ha hia) (isFinite_of_not_special hb hib)
      (isFinite_of_nonzeroFinite hnc) hz, isZero_of_nonzeroFinite hnc]
    rfl

/-! ### The resolver and the policy (R150) -/

/-- Where the resolver of a function is silent: finite operands, and in all but ADDQ and SUBQ nonzero factors, dividend and
divisor. -/
theorem resolve_eq_none_iff (f : Fn) (a b c : Float128) : resolve f a b c = none ↔
    isFinite a = true ∧ isFinite b = true ∧ (f.fused = true → isFinite c = true) ∧
      ((f = .mul ∨ f = .div ∨ f.fused = true) → isZero a = false ∧ isZero b = false) := by
  have hnz (x : Float128) : isNonzeroFinite x = true ↔ isFinite x = true ∧ isZero x = false :=
    ⟨fun h => ⟨isFinite_of_nonzeroFinite h, isZero_of_nonzeroFinite h⟩, fun h => isNonzeroFinite_of_finite h.1 h.2⟩
  cases f with
  | add => simpa [resolve, Fn.fused] using resolveAdd_eq_none_iff a b false
  | sub => simpa [resolve, Fn.fused] using resolveAdd_eq_none_iff a b true
  | mul => simp [resolve, resolveMul_eq_none_iff, hnz, Fn.fused, and_assoc, and_left_comm]
  | div => simp [resolve, resolveDiv_eq_none_iff, hnz, Fn.fused, and_assoc, and_left_comm]
  | fma => simp [resolve, resolveFma_eq_none_iff, hnz, Fn.fused, and_assoc, and_left_comm, and_comm]
  | fms => simp [resolve, resolveFma_eq_none_iff, hnz, Fn.fused, and_assoc, and_left_comm, and_comm]

/-- Settles O45: on these operands the resolver answers, and it does not read the policy. -/
theorem specialResultsIgnoreThePolicy : Obligations.SpecialResultsIgnoreThePolicy := by
  intro f s hspecial
  cases h : resolve f s.a_i s.b_i s.c_i with
  | some v => exact ⟨v, exec_of_resolve .rne h, exec_of_resolve .ro h⟩
  | none =>
    obtain ⟨ha, hb, hc, hz⟩ := (resolve_eq_none_iff f _ _ _).1 h
    rcases hspecial with h1 | h1 | ⟨hf, h1⟩ | ⟨hf, h1 | h1⟩
    · simp [ha] at h1
    · simp [hb] at h1
    · simp [hc hf] at h1
    · simp [(hz hf).1] at h1
    · simp [(hz hf).2] at h1

end Sys2Proof.Machine
end

section
/-!
PROOFS. The finite values and their order (spec/40_decompose_classify.md R85, R88), and what is exact because it is one of
them (spec/44_add_sub.md R173, R178, spec/45_multiply.md R191, spec/46_divide.md R202).
-/

namespace Sys2Proof.Machine

/-! ### The order of the finite magnitudes (R88) -/

/-- Bits 126:0 of a finite pattern, as a number of units of its exponent and its significand (R82, R83). -/
theorem magnitude_eq {x : Float128} (h : isFinite x = true) :
    ((x.toNat % 2 ^ 127 : Nat) : Int) = (expOf x - 1) * 2 ^ 112 + (sigOf x).toNat := by
  have hfin := (isFinite_iff_bexp x).1 h
  rw [magnitude_eq_fields, sigOf_toNat, expOf]
  by_cases h0 : bexpOf x = 0#15
  · have hn : cls x ≠ .normal := fun hn => ((cls_normal_iff x).1 hn).1 h0
    simp [h0, hn]
  · rw [if_neg h0, if_pos ((cls_normal_iff x).2 ⟨h0, hfin⟩)]
    push_cast
    ring

theorem abs_value_eq_ulp (x : Float128) : |value x| = (sigOf x).toNat * ulp (expOf x) :=
  abs_value x

section
variable {x y : Float128} (hx : isFinite x = true) (hy : isFinite y = true)
include hx hy

/-- The order of bits 126:0 is the lexicographic order of exponent and significand: above exponent 1 the leading bit is set,
and the significand has 113 bits. -/
theorem magnitude_lt_iff : x.toNat % 2 ^ 127 < y.toNat % 2 ^ 127 ↔
    expOf x < expOf y ∨ (expOf x = expOf y ∧ (sigOf x).toNat < (sigOf y).toNat) := by
  have hmx := magnitude_eq hx
  have hmy := magnitude_eq hy
  have hsx := sigOf_lt x
  have hsy := sigOf_lt y
  have hlx := sigOf_ge_or_exp_one hx
  have hly := sigOf_ge_or_exp_one hy
  have hex := one_le_expOf x
  have hey := one_le_expOf y
  omega

/-- A larger exponent, or a larger significand at the same exponent, is a larger magnitude. -/
theorem abs_value_lt (h : x.toNat % 2 ^ 127 < y.toNat % 2 ^ 127) : |value x| < |value y| := by
  rw [abs_value_eq_ulp, abs_value_eq_ulp]
  have hux := ulp_pos (expOf x)
  rcases (magnitude_lt_iff hx hy).1 h with hexp | ⟨hexp, hsig⟩
  · have hex := one_le_expOf x
    have hsy : (2 : ℚ) ^ 112 ≤ (sigOf y).toNat := by
      exact_mod_cast (sigOf_ge_or_exp_one hy).resolve_right (by omega)
    have hsx : ((sigOf x).toNat : ℚ) < 2 ^ 113 := by exact_mod_cast sigOf_lt x
    have hstep : 2 ^ 1 * ulp (expOf x) ≤ ulp (expOf y) := by
      rw [← ulp_add]
      exact ulp_le (by push_cast; omega)
    calc ((sigOf x).toNat : ℚ) * ulp (expOf x) < 2 ^ 113 * ulp (expOf x) := by gcongr
      _ = 2 ^ 112 * (2 ^ 1 * ulp (expOf x)) := by ring
      _ ≤ (sigOf y).toNat * ulp (expOf y) := by gcongr
  · rw [hexp] at hux ⊢
    have : ((sigOf x).toNat : ℚ) < (sigOf y).toNat := by exact_mod_cast hsig
    gcongr

/-- Equal bits 126:0 are equal magnitudes: exponent and significand agree. -/
theorem abs_value_eq (h : x.toNat % 2 ^ 127 = y.toNat % 2 ^ 127) : |value x| = |value y| := by
  have hxy := mt (magnitude_lt_iff hx hy).2 h.not_lt
  have hyx := mt (magnitude_lt_iff hy hx).2 h.symm.not_lt
  have hexp : expOf x = expOf y := by omega
  have hsig : (sigOf x).toNat = (sigOf y).toNat := by omega
  rw [abs_value_eq_ulp, abs_value_eq_ulp, hexp, hsig]

theorem abs_value_lt_iff : |value x| < |value y| ↔ x.toNat % 2 ^ 127 < y.toNat % 2 ^ 127 := by
  refine ⟨fun h => ?_, abs_value_lt hx hy⟩
  rcases lt_trichotomy (x.toNat % 2 ^ 127) (y.toNat % 2 ^ 127) with hlt | heq | hgt
  · exact hlt
  · exact absurd (abs_value_eq hx hy heq) h.ne
  · exact absurd (abs_value_lt hy hx hgt) h.asymm

theorem abs_value_eq_iff : |value x| = |value y| ↔ x.toNat % 2 ^ 127 = y.toNat % 2 ^ 127 := by
  refine ⟨fun h => ?_, abs_value_eq hx hy⟩
  rcases lt_trichotomy (x.toNat % 2 ^ 127) (y.toNat % 2 ^ 127) with hlt | heq | hgt
  · exact absurd h (abs_value_lt hx hy hlt).ne
  · exact heq
  · exact absurd h (abs_value_lt hy hx hgt).ne'

/-- A finite pattern is fixed by its value and its sign: the two zeros are the only patterns of one value. -/
theorem eq_of_value_eq (hv : value x = value y) (hs : signOf x = signOf y) : x = y := by
  have hmag := (abs_value_eq_iff hx hy).1 (by rw [hv])
  have hlx := x.isLt
  have hly := y.isLt
  rw [signOf_eq_toNat, signOf_eq_toNat, decide_eq_decide] at hs
  apply BitVec.eq_of_toNat_eq
  omega

end

/-- Settles O13: both orders are the order of bits 126:0. -/
theorem magnitudeOrderIsPatternOrder : Obligations.MagnitudeOrderIsPatternOrder := fun _ _ hx hy =>
  ⟨(abs_value_lt_iff hx hy).trans (magnitude_lt_iff hx hy), abs_value_lt_iff hx hy, abs_value_eq_iff hx hy⟩

/-- Settles O14: a finite value is a whole number of units at exponent 1, and a nonzero one at least one of them. -/
theorem finiteValuesAreMultiplesOfTheLeastSubnormal : Obligations.FiniteValuesAreMultiplesOfTheLeastSubnormal := by
  intro x hx
  obtain ⟨k, hk⟩ := (value_spacing x 1).resolve_right (fun h => h.1 rfl)
  have hulp : ulp 1 = (2 : ℚ) ^ (-16494 : Int) := by rw [ulp]; norm_num
  rw [hulp] at hk
  refine ⟨⟨k, hk⟩, fun hz => ?_⟩
  have hk0 : k ≠ 0 := by
    rintro rfl
    exact value_ne_zero_of_nonzeroFinite (isNonzeroFinite_of_finite hx hz) (by simpa using hk)
  have hk1 : (1 : ℚ) ≤ |(k : ℚ)| := by exact_mod_cast Int.one_le_abs hk0
  rw [hk, abs_mul, abs_of_pos (two_zpow_pos _)]
  exact le_mul_of_one_le_left (two_zpow_pos _).le hk1

/-! ### Exact identities -/

/-- A binary128 value other than 0 has one rounding, itself (R138). -/
theorem eq_of_rounds_self {mode : Rounding} {x r : Float128} (hx : isNonzeroFinite x = true)
    (h : Rounds mode (value x) r) : r = x := by
  have hfin := isFinite_of_nonzeroFinite hx
  obtain ⟨hr, hsign, hvalue⟩ := value_of_rounds_exact hfin h
  exact eq_of_value_eq hr hfin hvalue (hsign.trans (decide_value_neg hx))

theorem signedZero_of_zero {x : Float128} (h : isZero x = true) : signedZero (signOf x) = x := by
  have hz : isZero (signedZero (signOf x)) = true := by simp [isZero]
  exact eq_of_value_eq (isFinite_of_zero hz) (isFinite_of_zero h) ((value_of_zero hz).trans (value_of_zero h).symm)
    (signOf_signedZero _)

/-- The pattern of 1 (R59). -/
def oneQ : Float128 :=
  pack false 0x3FFF#15 0#112

theorem signOf_oneQ : signOf oneQ = false := by decide

theorem isNonzeroFinite_oneQ : isNonzeroFinite oneQ = true := by decide

theorem value_oneQ : value oneQ = 1 := by
  have hs : (sigOf oneQ).toNat = 2 ^ 112 := by decide
  have he : expOf oneQ = 16383 := by decide
  rw [value, hs, he, signOf_oneQ, signFactor]
  norm_num

section
variable (mode : Rounding) {x : Float128} (hx : isFinite x = true)

theorem addSub_zero_right {z : Float128} (hx : isNonzeroFinite x = true) (hz : isZero z = true) :
    addSub mode x z false = x := by
  have hsum : value x + value (effective false z) = value x := by
    rw [effective_false, value_of_zero hz, add_zero]
  have h := addSub_rounds mode false (isFinite_of_nonzeroFinite hx) (isFinite_of_zero hz)
    (by rw [hsum]; exact value_ne_zero_of_nonzeroFinite hx)
  rw [hsum] at h
  exact eq_of_rounds_self hx h

include hx in
theorem mul_one_right : mul mode x oneQ = x := by
  cases hz : isZero x with
  | true =>
    rw [mul_of_resolve mode (resolveMul_zero hx (isFinite_of_nonzeroFinite isNonzeroFinite_oneQ) (.inl hz)), signOf_oneQ,
      Bool.xor_false, signedZero_of_zero hz]
  | false =>
    have hnx := isNonzeroFinite_of_finite hx hz
    have h := mul_rounds mode hnx isNonzeroFinite_oneQ
    rw [value_oneQ, mul_one] at h
    exact eq_of_rounds_self hnx h

include hx in
theorem div_one_right : div mode x oneQ = x := by
  cases hz : isZero x with
  | true =>
    rw [div_of_resolve mode (resolveDiv_zero_dividend hz isNonzeroFinite_oneQ), signOf_oneQ, Bool.xor_false,
      signedZero_of_zero hz]
  | false =>
    have hnx := isNonzeroFinite_of_finite hx hz
    have h := div_rounds mode hnx isNonzeroFinite_oneQ
    rw [value_oneQ, div_one] at h
    exact eq_of_rounds_self hnx h

theorem div_self_eq_one (hx : isNonzeroFinite x = true) : div mode x x = oneQ := by
  have h := div_rounds mode hx hx
  rw [div_self (value_ne_zero_of_nonzeroFinite hx), ← value_oneQ] at h
  exact eq_of_rounds_self isNonzeroFinite_oneQ h

end

/-- Settles O51: the exact result is a binary128 value, so it is its own rounding; the zeros go through the resolver. -/
theorem exactIdentitiesHoldUnderBothPolicies : Obligations.ExactIdentitiesHoldUnderBothPolicies := by
  intro mode s hx
  rw [← oneQ]
  refine ⟨fun hz hb => ?_, fun hb => ?_, fun hb => ?_, fun hz hb => ?_⟩
  · rw [exec_add, addSub_zero_right mode (isNonzeroFinite_of_finite hx hz) hb]
  · rw [exec_mul, hb, mul_one_right mode hx]
  · rw [exec_div, hb, div_one_right mode hx]
  · rw [exec_div, hb, div_self_eq_one mode (isNonzeroFinite_of_finite hx hz)]

/-! ### Sums of operands of exponent 1 (R178) -/

/-- Every whole number of least units below 2^113 is a binary128 value (R85). -/
theorem exists_value_eq_units {k : Int} (hk : |k| < 2 ^ 113) :
    ∃ y : Float128, isFinite y = true ∧ value y = k * ulp 1 := by
  have hlt : k.natAbs < 2 ^ 113 := by
    rw [Int.abs_eq_natAbs] at hk
    exact_mod_cast hk
  have hq : (BitVec.ofNat 113 k.natAbs).toNat = k.natAbs := by rw [BitVec.toNat_ofNat, Nat.mod_eq_of_lt hlt]
  obtain ⟨hfin, -, hvalue, -⟩ := packResult_value .rne (decide (k < 0)) (e := 1) (q := BitVec.ofNat 113 k.natAbs)
    (by norm_num) (by norm_num) (.inr rfl)
  refine ⟨_, hfin, ?_⟩
  have habs : signFactor (decide (k < 0)) * (k.natAbs : ℚ) = k := by
    rw [Nat.cast_natAbs, signFactor]
    rcases lt_or_ge k 0 with hneg | hpos
    · simp [hneg, abs_of_neg hneg]
    · simp [hpos.not_gt, abs_of_nonneg hpos]
  rw [hvalue, hq, ← mul_assoc, habs]

/-- An exact sum that is a binary128 value is delivered as it is, under both policies (R138). -/
theorem addSub_exact (mode : Rounding) {a b y : Float128} (ha : isFinite a = true) (hb : isFinite b = true)
    (hy : isFinite y = true) (h : value y = value a + value b) :
    isFinite (addSub mode a b false) = true ∧ value (addSub mode a b false) = value a + value b := by
  by_cases h0 : value a + value b = 0
  · have hz : isZero (signedZero (signOf a && signOf b)) = true := by simp [isZero]
    rw [addSub_zero mode false ha hb h0, effective_false, h0]
    exact ⟨isFinite_of_zero hz, value_of_zero hz⟩
  · have hr := addSub_rounds mode false ha hb h0
    rw [effective_false, ← h] at hr
    obtain ⟨hfin, -, hvalue⟩ := value_of_rounds_exact hy hr
    exact ⟨hfin, hvalue.trans h⟩

/-- An operand's significand with its sign. -/
def signedSig (x : Float128) : Int :=
  if signOf x then -((sigOf x).toNat : Int) else (sigOf x).toNat

theorem value_eq_units {x : Float128} (h : expOf x = 1) : value x = signedSig x * ulp 1 := by
  rw [value, h, signedSig, signFactor, ulp]
  cases signOf x
  · simp
  · simp

/-- Subnormals and zeros have no bit above the fraction (R82). -/
theorem sigOf_lt_of_exponent_field_zero {x : Float128} (h : bexpOf x = 0#15) : (sigOf x).toNat < 2 ^ 112 := by
  have hf := (fracOf x).isLt
  rw [sigOf_toNat, if_neg fun hn => ((cls_normal_iff x).1 hn).1 h]
  omega

theorem isFinite_of_exp_one {x : Float128} (h : expOf x = 1) : isFinite x = true := by
  rw [isFinite_iff_bexp]
  rintro hb
  rw [expOf, hb] at h
  exact absurd h (by decide)

/-- Two operands without a leading bit, or of opposite signs, do not add up to 2^113 units of exponent 1. -/
theorem abs_signedSig_add_lt {x y : Float128}
    (h : (bexpOf x = 0#15 ∧ bexpOf y = 0#15) ∨ signOf x ≠ signOf y) : |signedSig x + signedSig y| < 2 ^ 113 := by
  have hx := sigOf_lt x
  have hy := sigOf_lt y
  rw [abs_lt]
  unfold signedSig
  rcases h with ⟨h0, h1⟩ | hs
  · have hx' := sigOf_lt_of_exponent_field_zero h0
    have hy' := sigOf_lt_of_exponent_field_zero h1
    cases signOf x <;> cases signOf y <;> simp only [Bool.false_eq_true, if_true, if_false] <;> omega
  · rw [Bool.eq_not_of_ne hs]
    cases signOf y
    · simp only [Bool.not_false, Bool.false_eq_true, if_true, if_false]
      omega
    · simp only [Bool.not_true, Bool.false_eq_true, if_true, if_false]
      omega

/-- An odd number of least units above 2^113 is no binary128 value: at exponent 2 the unit is twice as large (R85). -/
theorem value_ne_odd_units (y : Float128) {k : Int} (hodd : k % 2 = 1) (hk : 2 ^ 113 ≤ k) : value y ≠ k * ulp 1 := by
  intro h
  have hu := ulp_pos 1
  have hstep : ulp 2 = 2 * ulp 1 := by simpa using ulp_add 1 1
  rcases value_spacing y 2 with ⟨j, hj⟩ | ⟨-, hlow⟩
  · rw [h, hstep, ← mul_assoc] at hj
    have : k = j * 2 := by exact_mod_cast mul_right_cancel₀ hu.ne' hj
    omega
  · have hk' : ((2 ^ 113 : Int) : ℚ) ≤ k := by exact_mod_cast hk
    have hpos : (0 : ℚ) ≤ k := le_trans (by norm_num) hk'
    rw [h, hstep, ← mul_assoc, abs_of_nonneg (mul_nonneg hpos hu.le)] at hlow
    have := lt_of_mul_lt_mul_right hlow hu.le
    push_cast at hk'
    linarith

/-- The pair of log entry 10: 2^112 + 1 and 2^112 units of exponent 1. -/
def exponentOnePair : State :=
  { op_i := 0#4, a_i := pack false 1#15 1#112, b_i := pack false 1#15 0#112, c_i := 0#128, result_o := 0#128 }

/-- Settles O35: below 2^113 units the exact sum is a binary128 value; the pair of log entry 10 adds up to 2^113 + 1. -/
theorem sumsOfSubnormalsAreExact : Obligations.SumsOfSubnormalsAreExact := by
  refine ⟨fun mode s ha hb h => ?_, fun mode => ⟨exponentOnePair, _, by decide, by decide, exec_add mode _, ?_⟩⟩
  · obtain ⟨y, hy, hvalue⟩ := exists_value_eq_units (abs_signedSig_add_lt h)
    have hsum : value y = value s.a_i + value s.b_i := by
      rw [hvalue, value_eq_units ha, value_eq_units hb]
      push_cast
      ring
    obtain ⟨hfin, hexact⟩ := addSub_exact mode (isFinite_of_exp_one ha) (isFinite_of_exp_one hb) hy hsum
    exact ⟨_, exec_add mode s, hfin, hexact⟩
  · have hunits : value exponentOnePair.a_i + value exponentOnePair.b_i = ((2 ^ 113 + 1 : Int) : ℚ) * ulp 1 := by
      have ha : signedSig exponentOnePair.a_i = 2 ^ 112 + 1 := by decide
      have hb : signedSig exponentOnePair.b_i = 2 ^ 112 := by decide
      rw [value_eq_units (by decide), value_eq_units (by decide), ha, hb]
      push_cast
      ring
    rw [hunits]
    exact value_ne_odd_units _ (by norm_num) (by norm_num)

end Sys2Proof.Machine
end

section
/-!
PROOFS. The class of a result (spec/42_normalize_round.md R137, spec/43_special_values.md R151 to R157, spec/60_exceptions.md
R231): the back end never makes a NaN and under round-to-odd never an infinity; the resolver's NaNs are quiet, and are the
invalid cases.
-/

namespace Sys2Proof.Machine

/-! ### The back end (R137) -/

/-- A finite pattern, or an infinity that RNE overflowed to. -/
def FiniteOrOverflow (mode : Rounding) (v : Float128) : Prop :=
  isFinite v = true ∨ (mode = .rne ∧ isInf v = true)

theorem FiniteOrOverflow.isNaN_eq_false {mode : Rounding} {v : Float128} (h : FiniteOrOverflow mode v) :
    isNaN v = false :=
  h.elim isNaN_of_finite fun h => isNaN_of_inf h.2

theorem FiniteOrOverflow.isFinite_of_ro {v : Float128} (h : FiniteOrOverflow .ro v) : isFinite v = true :=
  h.resolve_right (by simp)

/-- The packer, given an exponent of at least 1, makes no NaN, and an infinity under RNE only. -/
theorem packResult_finiteOrOverflow (mode : Rounding) (s : Bool) {e : Int} (q : Sig) (he : 1 ≤ e) :
    FiniteOrOverflow mode (packResult mode s e q) := by
  rcases packResult_cases mode s e q with ⟨-, h⟩ | ⟨-, -, hm, h⟩ | ⟨-, -, -, h⟩ | ⟨-, hlt, h⟩
  · refine .inl ?_
    rw [h, isFinite_iff_bexp, bexpOf_pack]
    decide
  · exact .inr ⟨hm, by rw [h]; simp [isInf]⟩
  · exact .inl (by rw [h]; simp [isFinite])
  · refine .inl ?_
    have hexp := ofInt15_toNat (by omega : 0 ≤ e) hlt
    rw [h, isFinite_iff_bexp, bexpOf_pack]
    intro hspecial
    rw [hspecial] at hexp
    simp only [BitVec.toNat_ofNat] at hexp
    omega

/-- Rounding never lowers the exponent (R135, R136). -/
theorem exp_le_roundFrame (mode : Rounding) (f : Frame) : f.exp ≤ (roundFrame mode f).1 := by
  cases mode with
  | rne =>
    rcases roundToNearestEven_eq f with ⟨-, h, -⟩ | ⟨-, h, -⟩
    · exact h.ge
    · exact (lt_add_one f.exp).le.trans h.ge
  | ro => exact le_rfl

theorem normRoundPack_finiteOrOverflow (mode : Rounding) (s : Bool) (e : Int) (m : U256) (x : Bool) :
    FiniteOrOverflow mode (normRoundPack mode s e m x) :=
  packResult_finiteOrOverflow mode s _ ((one_le_normalize_exp _).trans (exp_le_roundFrame mode _))

theorem signedZero_isFinite (s : Bool) : isFinite (signedZero s) = true := by simp [isFinite]

/-! ### The finite paths, by function -/

/-- The finite path of a function, before rounding (R171, R190, R201, R211). -/
def finitePath (f : Fn) (a b c : Float128) : OperationResult :=
  match f with
  | .add => addFinite a b
  | .sub => addFinite a (negate b)
  | .mul => mulFinite a b
  | .div => divFinite a b
  | .fma => fmaFinite a b c
  | .fms => fmaFinite a b (negate c)

/-- What an instruction answers where the resolver is silent (R150). -/
theorem exec_of_resolve_none (m : Rounding) {f : Fn} {s : State} (h : resolve f s.a_i s.b_i s.c_i = none) :
    exec (instrOf m f) s = .next (s.respond (deliver m (finitePath f s.a_i s.b_i s.c_i))) := by
  cases f with
  | add => rw [exec_add, addSub, addSubResult, show resolveAdd _ _ _ = none from h]; rfl
  | sub => rw [exec_sub, addSub, addSubResult, show resolveAdd _ _ _ = none from h]; rfl
  | mul => rw [exec_mul, mul, mulResult, show resolveMul _ _ = none from h]; rfl
  | div => rw [exec_div, div, divResult, show resolveDiv _ _ = none from h]; rfl
  | fma => rw [exec_fma, fma, fmaResult, show resolveFma _ _ _ _ = none from h]; rfl
  | fms => rw [exec_fms, fma, fmaResult, show resolveFma _ _ _ _ = none from h]; rfl

/-- A result before rounding that is a frame to round, or a zero to return directly. -/
inductive ZeroOrFrame : OperationResult → Prop
  | zero (s : Bool) : ZeroOrFrame (.special (signedZero s))
  | frame (s : Bool) (e : Int) (m : U256) (x : Bool) : ZeroOrFrame (.finite s e m x)

theorem addOrdered_zeroOrFrame (x y : Float128) : ZeroOrFrame (addOrdered (decompose x) (decompose y)) := by
  rw [addOrdered_eq]
  split_ifs
  · exact .zero _
  · exact .frame ..

theorem addFinite_zeroOrFrame (a b : Float128) : ZeroOrFrame (addFinite a b) := by
  by_cases h : magnitudeBelow (decompose a) (decompose b) = true
  · rw [addFinite_of_below h]
    exact addOrdered_zeroOrFrame b a
  · rw [addFinite_of_not_below h]
    exact addOrdered_zeroOrFrame a b

theorem fmaCombine_zeroOrFrame (sp sc : Bool) (e : Int) (p c : U256) : ZeroOrFrame (fmaCombine sp sc e p c) := by
  rw [fmaCombine_eq]
  by_cases h : combinedFrame sp sc p c = 0#256
  · rw [if_pos h]
    exact .zero _
  · rw [if_neg h]
    exact .frame ..

theorem fmaAlign_zeroOrFrame (sp sc : Bool) (ep ec : Int) (p c : U256) : ZeroOrFrame (fmaAlign sp sc ep ec p c) := by
  unfold fmaAlign
  split_ifs
  · exact fmaCombine_zeroOrFrame ..
  · exact fmaCombine_zeroOrFrame ..

theorem fmaFinite_zeroOrFrame (a b c : Float128) : ZeroOrFrame (fmaFinite a b c) := by
  unfold fmaFinite
  dsimp only
  split_ifs
  · exact .frame ..
  · exact fmaAlign_zeroOrFrame ..
  · exact fmaAlign_zeroOrFrame ..

theorem finitePath_zeroOrFrame (f : Fn) (a b c : Float128) : ZeroOrFrame (finitePath f a b c) := by
  cases f with
  | add => exact addFinite_zeroOrFrame a b
  | sub => exact addFinite_zeroOrFrame a (negate b)
  | mul => exact .frame ..
  | div => exact .frame ..
  | fma => exact fmaFinite_zeroOrFrame a b c
  | fms => exact fmaFinite_zeroOrFrame a b (negate c)

/-- A finite path delivers a finite pattern, or the infinity of an RNE overflow (R137). -/
theorem deliver_finiteOrOverflow (mode : Rounding) {o : OperationResult} (h : ZeroOrFrame o) :
    FiniteOrOverflow mode (deliver mode o) := by
  cases h with
  | zero s => exact .inl (signedZero_isFinite s)
  | frame s e m x => exact normRoundPack_finiteOrOverflow mode s e m x

/-! ### The resolver's answers -/

theorem isNaN_defaultQNaN : isNaN defaultQNaN = true := by simp [isNaN]

theorem isNaN_signedInf (s : Bool) : isNaN (signedInf s) = false := by simp [isNaN]

theorem isNaN_signedZero (s : Bool) : isNaN (signedZero s) = false := by simp [isNaN]

theorem cls_quiet_of_isNaN {x : Float128} (h : isNaN x = true) : cls (quiet x) = .qNaN := by
  have hfrac : fracOf (quiet x) ≠ 0#112 := fun h0 => by
    have hbit := fracOf_quiet_quietBit x
    rw [h0] at hbit
    exact absurd hbit (by decide)
  simp [cls, bexpOf_of_isNaN h, hfrac, fracOf_quiet_quietBit]

/-- What a resolver can answer, given whether an operand is a NaN and whether the operation is invalid: an operand NaN
quieted, the default NaN, or no NaN when it is neither (R151 to R157, R231). -/
inductive SpecialAnswer (nan invalid : Bool) : Float128 → Prop
  | operandNaN {x : Float128} (hx : isNaN x = true) (hn : nan = true) : SpecialAnswer nan invalid (quiet x)
  | invalidOp (hi : invalid = true) : SpecialAnswer nan invalid defaultQNaN
  | noNaN {v : Float128} (hv : isNaN v = false) (hn : nan = false) (hi : invalid = false) : SpecialAnswer nan invalid v

theorem SpecialAnswer.isNaN_iff {nan invalid : Bool} {v : Float128} (h : SpecialAnswer nan invalid v) :
    isNaN v = true ↔ nan = true ∨ invalid = true := by
  cases h with
  | operandNaN hx hn => simp [isNaN_quiet hx, hn]
  | invalidOp hi => simp [isNaN_defaultQNaN, hi]
  | noNaN hv hn hi => simp [hv, hn, hi]

/-- "arithmetic must quiet any signaling NaN it propagates" (R151). -/
theorem SpecialAnswer.isSNaN_eq_false {nan invalid : Bool} {v : Float128} (h : SpecialAnswer nan invalid v) :
    isSNaN v = false := by
  cases h with
  | operandNaN hx hn => simp [isSNaN, cls_quiet_of_isNaN hx]
  | invalidOp hi => simp [isSNaN]
  | noNaN hv hn hi => exact (Bool.or_eq_false_iff.1 hv).2

section
variable {a b c v : Float128}

theorem resolveAdd_answer {isSub : Bool} (h : resolveAdd a b isSub = some v) :
    SpecialAnswer (isNaN a || isNaN b) (opposedInfinities a (effective isSub b)) v := by
  unfold resolveAdd at h
  simp only [isInf_effective] at h
  split_ifs at h with hna hnb hi hs hia hib <;> cases h
  · exact .operandNaN hna (by simp [hna])
  · exact .operandNaN hnb (by simp [hnb])
  · have hia := (Bool.and_eq_true_iff.1 hi).1
    exact .noNaN (isNaN_of_inf hia) (by simp [hna, hnb]) (by simp [opposedInfinities, hs])
  · exact .invalidOp (by simpa [opposedInfinities, hs] using hi)
  · exact .noNaN (isNaN_of_inf hia) (by simp [hna, hnb]) (by simp [opposedInfinities, hi])
  · exact .noNaN (isNaN_of_inf (by rwa [isInf_effective])) (by simp [hna, hnb]) (by simp [opposedInfinities, hia])

theorem resolveMul_answer (h : resolveMul a b = some v) :
    SpecialAnswer (isNaN a || isNaN b) (invalidProduct a b) v := by
  unfold resolveMul at h
  split_ifs at h with hna hnb hi hz hz <;> cases h
  · exact .operandNaN hna (by simp [hna])
  · exact .operandNaN hnb (by simp [hnb])
  · exact .invalidOp (by rw [invalidProduct, hi, hz]; rfl)
  · exact .noNaN (isNaN_signedInf _) (by simp [hna, hnb]) (by simp [invalidProduct, hz])
  · exact .noNaN (isNaN_signedZero _) (by simp [hna, hnb]) (by simp [invalidProduct, hi])

theorem resolveDiv_answer (h : resolveDiv a b = some v) :
    SpecialAnswer (isNaN a || isNaN b) ((isInf a && isInf b) || (isZero a && isZero b)) v := by
  unfold resolveDiv at h
  split_ifs at h with hna hnb hia hib hib hzb hza hza <;> cases h
  · exact .operandNaN hna (by simp [hna])
  · exact .operandNaN hnb (by simp [hnb])
  · exact .invalidOp (by simp [hia, hib])
  · exact .noNaN (isNaN_signedInf _) (by simp [hna, hnb]) (by simp [hib, isZero_of_inf hia])
  · exact .noNaN (isNaN_signedZero _) (by simp [hna, hnb]) (by simp [hia, isZero_of_inf hib])
  · exact .invalidOp (by simp [hza, hzb])
  · exact .noNaN (isNaN_signedInf _) (by simp [hna, hnb]) (by simp [hia, hza])
  · exact .noNaN (isNaN_signedZero _) (by simp [hna, hnb]) (by simp [hia, hzb])

theorem resolveFma_answer {isSub : Bool} (h : resolveFma a b c isSub = some v) :
    SpecialAnswer (isNaN a || isNaN b || isNaN c) (invalidProduct a b || invalidSum a b (effective isSub c)) v := by
  have hnc' : isNaN (effective isSub c) = isNaN c := by cases isSub <;> simp
  unfold resolveFma at h
  simp only [isInf_effective] at h
  split_ifs at h with hna hnb hp hnc hi hs hic hz hsz hzp <;> cases h
  · exact .operandNaN hna (by simp [hna])
  · exact .operandNaN hnb (by simp [hnb])
  · exact .invalidOp (by rw [invalidProduct, hp]; rfl)
  · exact .operandNaN hnc (by simp [hnc])
  all_goals
    have hnan : (isNaN a || isNaN b || isNaN c) = false := by simp [hna, hnb, hnc]
    have hprod : invalidProduct a b = false := by simpa [invalidProduct] using hp
  · exact .invalidOp (by rw [hprod, invalidSum, isInf_effective, hi, Bool.true_and, hs]; rfl)
  · refine .noNaN (isNaN_signedInf _) hnan ?_
    rw [hprod, invalidSum, isInf_effective, hi, Bool.true_and]
    simpa using hs
  all_goals
    have hsum : invalidSum a b (effective isSub c) = false := by
      rw [invalidSum, Bool.eq_false_of_not_eq_true hi]
      rfl
    have hvalid : (invalidProduct a b || invalidSum a b (effective isSub c)) = false := by rw [hprod, hsum]; rfl
  · exact .noNaN (by simpa [hnc'] using hnc) hnan hvalid
  · exact .noNaN (isNaN_signedZero _) hnan hvalid
  · exact .noNaN (isNaN_signedZero _) hnan hvalid
  · exact .noNaN (by simpa [hnc'] using hnc) hnan hvalid

theorem resolve_answer {f : Fn} (h : resolve f a b c = some v) :
    SpecialAnswer (nanOperand f a b c) (invalidOperation f a b c) v := by
  cases f with
  | add => simpa [nanOperand, invalidOperation, Fn.fused] using resolveAdd_answer h
  | sub => simpa [nanOperand, invalidOperation, Fn.fused] using resolveAdd_answer h
  | mul => simpa [nanOperand, invalidOperation, Fn.fused] using resolveMul_answer h
  | div => simpa [nanOperand, invalidOperation, Fn.fused] using resolveDiv_answer h
  | fma => simpa [nanOperand, invalidOperation, Fn.fused] using resolveFma_answer h
  | fms => simpa [nanOperand, invalidOperation, Fn.fused] using resolveFma_answer h

end

/-- Where the resolver is silent no operand is a NaN and the operation is valid (R231). -/
theorem valid_of_resolve_none {f : Fn} {a b c : Float128} (h : resolve f a b c = none) :
    nanOperand f a b c = false ∧ invalidOperation f a b c = false := by
  obtain ⟨ha, hb, hc, hz⟩ := (resolve_eq_none_iff f a b c).1 h
  have hia := isInf_of_finite ha
  have hib := isInf_of_finite hb
  constructor
  · cases hf : f.fused with
    | false => simp [nanOperand, isNaN_of_finite ha, isNaN_of_finite hb, hf]
    | true => simp [nanOperand, isNaN_of_finite ha, isNaN_of_finite hb, isNaN_of_finite (hc hf)]
  · cases f with
    | add => simp [invalidOperation, opposedInfinities, hia]
    | sub => simp [invalidOperation, opposedInfinities, hia]
    | mul => simp [invalidOperation, invalidProduct, hia, hib]
    | div => simp [invalidOperation, hia, (hz (.inr (.inl rfl))).1]
    | fma => simp [invalidOperation, invalidProduct, invalidSum, hia, hib]
    | fms => simp [invalidOperation, invalidProduct, invalidSum, hia, hib]

/-! ### The class of a result -/

/-- An instruction answers what the resolver says, or what its finite path delivers (R150). -/
theorem exec_cases (m : Rounding) (f : Fn) (s : State) :
    ∃ v, exec (instrOf m f) s = .next (s.respond v) ∧
      (resolve f s.a_i s.b_i s.c_i = some v ∨
        (resolve f s.a_i s.b_i s.c_i = none ∧ FiniteOrOverflow m v)) := by
  cases h : resolve f s.a_i s.b_i s.c_i with
  | some v => exact ⟨v, exec_of_resolve m h, .inl rfl⟩
  | none =>
    exact ⟨_, exec_of_resolve_none m h, .inr ⟨rfl, deliver_finiteOrOverflow m (finitePath_zeroOrFrame ..)⟩⟩

/-- Settles O43: the resolver's NaNs are the NaN operands and the invalid operations, and the finite paths make none. -/
theorem resultIsNaNExactlyWhenInvalid : Obligations.ResultIsNaNExactlyWhenInvalid := by
  intro i s t ht
  obtain ⟨v, hv, hcase⟩ := exec_cases i.mode i.fn s
  rw [instrOf_mode_fn, ht] at hv
  cases hv
  rw [respond_result_o]
  rcases hcase with h | ⟨h, hfin⟩
  · exact (resolve_answer h).isNaN_iff
  · obtain ⟨hn, hi⟩ := valid_of_resolve_none h
    simp [hfin.isNaN_eq_false, hn, hi]

/-- No instruction answers a signaling NaN (R151). -/
theorem exec_isSNaN_eq_false (i : Instr) {s t : State} (ht : exec i s = .next t) : isSNaN t.result_o = false := by
  obtain ⟨v, hv, hcase⟩ := exec_cases i.mode i.fn s
  rw [instrOf_mode_fn, ht] at hv
  cases hv
  rw [respond_result_o]
  rcases hcase with h | ⟨-, hfin⟩
  · exact (resolve_answer h).isSNaN_eq_false
  · exact (Bool.or_eq_false_iff.1 hfin.isNaN_eq_false).2

/-- The resolver's answer to finite operands, a zero divisor apart, is finite (R154 to R156). -/
theorem isFinite_of_resolve {f : Fn} {a b c v : Float128} (h : resolve f a b c = some v) (ha : isFinite a = true)
    (hb : isFinite b = true) (hc : f.fused = true → isFinite c = true) (hd : f = .div → isZero b = false) :
    isFinite v = true := by
  have hzero : isZero a = true ∨ isZero b = true := by
    by_contra hz
    rw [not_or, Bool.not_eq_true, Bool.not_eq_true] at hz
    rw [(resolve_eq_none_iff f a b c).2 ⟨ha, hb, hc, fun _ => hz⟩] at h
    cases h
  have hfused {isSub : Bool} (hc : isFinite c = true) (h : resolveFma a b c isSub = some v) : isFinite v = true := by
    rw [resolveFma_zero_product isSub ha hb hc hzero] at h
    cases h
    split_ifs
    · exact signedZero_isFinite _
    · rwa [isFinite_effective]
  cases f with
  | add =>
    rw [resolve, (resolveAdd_eq_none_iff a b false).2 ⟨ha, hb⟩] at h
    cases h
  | sub =>
    rw [resolve, (resolveAdd_eq_none_iff a b true).2 ⟨ha, hb⟩] at h
    cases h
  | mul =>
    rw [resolve, resolveMul_zero ha hb hzero] at h
    cases h
    exact signedZero_isFinite _
  | div =>
    have hzb := hd rfl
    rw [resolve, resolveDiv_zero_dividend (hzero.resolve_right (by simp [hzb])) (isNonzeroFinite_of_finite hb hzb)] at h
    cases h
    exact signedZero_isFinite _
  | fma => exact hfused (hc rfl) h
  | fms => exact hfused (hc rfl) h

/-- Settles O44: the resolver answers zeros and addends here, and the back end overflows to `SignedMaxFin`. -/
theorem roundToOddNeverOverflowsToInfinity : Obligations.RoundToOddNeverOverflowsToInfinity := by
  intro i s hm ha hb hc hd
  obtain ⟨v, hv, hcase⟩ := exec_cases i.mode i.fn s
  rw [instrOf_mode_fn] at hv
  refine ⟨v, hv, ?_⟩
  rcases hcase with h | ⟨-, hfin⟩
  · exact isFinite_of_resolve h ha hb hc hd
  · rw [hm] at hfin
    exact hfin.isFinite_of_ro

end Sys2Proof.Machine
end

section
/-!
PROOFS. Relations between instructions: exchange of operands, negation, and a zero addend (spec/44_add_sub.md R172, R177,
spec/45_multiply.md R193, spec/47_fma.md R212, R217).
-/

namespace Sys2Proof.Machine

/-! ### FMSQ against FMAQ (R212) -/

/-- An addend that is no NaN enters the resolver through its effective value only (R156). -/
theorem resolveFma_sub_eq_add_negate (a b : Float128) {c : Float128} (hc : isNaN c = false) :
    resolveFma a b c true = resolveFma a b (negate c) false := by
  have heff : effective true c = effective false (negate c) := rfl
  rw [resolveFma, resolveFma, heff]
  simp only [isNaN_negate, hc, Bool.false_eq_true, if_false]

/-- The finite path reads the effective addend too, so the two agree before rounding already (R210, R212). -/
theorem fma_sub_eq_add_negate (mode : Rounding) (a b : Float128) {c : Float128} (hc : isNaN c = false) :
    fma mode a b c true = fma mode a b (negate c) false := by
  rw [fma, fma, fmaResult, fmaResult, resolveFma_sub_eq_add_negate a b hc, effective_true, effective_false]

/-- A NaN addend fixes the resolver's answer for both forms (R156, R157). -/
theorem resolveFma_of_nan_addend (a b : Float128) {c : Float128} (hc : isNaN c = true) :
    ∃ v, ∀ isSub, resolveFma a b c isSub = some v := by
  cases ha : isNaN a with
  | true => exact ⟨quiet a, fun _ => if_pos ha⟩
  | false =>
    cases hb : isNaN b with
    | true => exact ⟨quiet b, fun isSub => by simp [resolveFma, ha, hb]⟩
    | false =>
      cases hp : invalidProduct a b with
      | true => exact ⟨defaultQNaN, fun isSub => resolveFma_invalid_product isSub ha hb hp⟩
      | false => exact ⟨quiet c, fun isSub => resolveFma_nan_addend isSub ha hb hp hc⟩

/-- Settles O47: off the NaNs by the agreement before rounding; at a NaN addend the resolver answers both alike. -/
theorem fusedSubtractIsFusedAddOfTheNegation : Obligations.FusedSubtractIsFusedAddOfTheNegation := by
  intro mode s
  refine ⟨fun hc => ⟨_, exec_fms mode s, ?_⟩, fun hc => ?_⟩
  · rw [exec_fma, fma_sub_eq_add_negate mode _ _ hc]
  · obtain ⟨v, hv⟩ := resolveFma_of_nan_addend s.a_i s.b_i hc
    rw [exec_fms, exec_fma, fma_of_resolve mode (hv true), fma_of_resolve mode (hv false)]

/-! ### ADDQ with its operands exchanged (R177) -/

/-- There is one infinity of each sign (R56, R81). -/
theorem eq_of_inf {x y : Float128} (hx : isInf x = true) (hy : isInf y = true) (hs : signOf x = signOf y) : x = y := by
  have hmx := (classesPartitionThePatterns x).2.2.2.1.1 ((isInf_iff_cls x).1 hx)
  have hmy := (classesPartitionThePatterns y).2.2.2.1.1 ((isInf_iff_cls y).1 hy)
  have hlx := x.isLt
  have hly := y.isLt
  rw [signOf_eq_toNat, signOf_eq_toNat, decide_eq_decide] at hs
  apply BitVec.eq_of_toNat_eq
  omega

theorem resolveAdd_comm {a b : Float128} (ha : isNaN a = false) (hb : isNaN b = false) :
    resolveAdd a b false = resolveAdd b a false := by
  simp only [resolveAdd, effective_false, ha, hb, Bool.false_eq_true, if_false]
  by_cases hia : isInf a = true
  · by_cases hib : isInf b = true
    · by_cases hs : signOf a = signOf b
      · rw [eq_of_inf hia hib hs]
      · simp [hia, hib, hs, Ne.symm hs]
    · simp [hia, hib]
  · by_cases hib : isInf b = true
    · simp [hia, hib]
    · simp [hia, hib]

/-- On a full tie either operand may lead: equal signs add the same lanes, and opposite signs leave nothing. -/
theorem addOrdered_comm_of_tie {x y : Float128} (hexp : expOf x = expOf y) (hsig : sigOf x = sigOf y) :
    addOrdered (decompose x) (decompose y) = addOrdered (decompose y) (decompose x) := by
  rw [addOrdered_eq, addOrdered_eq]
  by_cases hs : signOf x = signOf y
  · simp [orderedLane, hexp, hsig, hs]
  · simp [orderedLane, align128, hexp, hsig, hs, Ne.symm hs, Bool.and_comm]

theorem addFinite_comm (a b : Float128) : addFinite a b = addFinite b a := by
  by_cases hab : magnitudeBelow (decompose a) (decompose b) = true
  · have hba : ¬ magnitudeBelow (decompose b) (decompose a) = true := by
      rw [magnitudeBelow_iff] at hab ⊢
      omega
    rw [addFinite_of_below hab, addFinite_of_not_below hba]
  · by_cases hba : magnitudeBelow (decompose b) (decompose a) = true
    · rw [addFinite_of_not_below hab, addFinite_of_below hba]
    · rw [addFinite_of_not_below hab, addFinite_of_not_below hba]
      rw [magnitudeBelow_iff] at hab hba
      exact addOrdered_comm_of_tie (by omega) (BitVec.eq_of_toNat_eq (by omega))

theorem addSub_comm (mode : Rounding) {a b : Float128} (ha : isNaN a = false) (hb : isNaN b = false) :
    addSub mode a b false = addSub mode b a false := by
  rw [addSub, addSub, addSubResult, addSubResult, resolveAdd_comm ha hb, effective_false, effective_false,
    addFinite_comm]

/-! ### SUBQ with its operands exchanged (R177) -/

/-- The result of a finite path with its sign flipped. -/
def OperationResult.negated : OperationResult → OperationResult
  | .special v => .special (negate v)
  | .finite s e m x => .finite (!s) e m x

theorem pack_not (s : Bool) (e : BitVec 15) (f : BitVec 112) : pack (!s) e f = negate (pack s e f) := by
  rw [← pack_fields (negate (pack s e f)), signOf_negate, bexpOf_negate, fracOf_negate, signOf_pack, bexpOf_pack,
    fracOf_pack]

theorem signedZero_not (s : Bool) : signedZero (!s) = negate (signedZero s) := by
  rw [signedZero_eq_pack, signedZero_eq_pack, pack_not]

/-- The packer treats both signs alike (R137). -/
theorem packResult_not (mode : Rounding) (s : Bool) (e : Int) (q : Sig) :
    packResult mode (!s) e q = negate (packResult mode s e q) := by
  unfold packResult
  split_ifs
  · cases mode
    · exact pack_not ..
    · exact pack_not ..
  · exact pack_not ..
  · exact pack_not ..

theorem deliver_negated (mode : Rounding) (o : OperationResult) :
    deliver mode o.negated = negate (deliver mode o) := by
  cases o with
  | special v => rfl
  | finite s e m x => exact packResult_not mode s _ _

@[simp] theorem orderedLane_negate (x y : Float128) : orderedLane (negate x) (negate y) = orderedLane x y := by
  simp [orderedLane]

theorem addOrdered_negate {x y : Float128} (h : orderedLane x y ≠ 0#128) :
    addOrdered (decompose (negate x)) (decompose (negate y)) = (addOrdered (decompose x) (decompose y)).negated := by
  rw [addOrdered_eq, addOrdered_eq, orderedLane_negate, if_neg h, if_neg h, signOf_negate, expOf_negate]
  rfl

/-- A sum that is not zero changes only its sign when both operands do (R171). -/
theorem addFinite_negate {a b : Float128} (ha : isFinite a = true) (hb : isFinite b = true)
    (h : value a + value b ≠ 0) : addFinite (negate a) (negate b) = (addFinite a b).negated := by
  have hbelow : magnitudeBelow (decompose (negate a)) (decompose (negate b)) = true ↔
      magnitudeBelow (decompose a) (decompose b) = true := by
    simp [magnitudeBelow_iff]
  by_cases hm : magnitudeBelow (decompose a) (decompose b) = true
  · rw [addFinite_of_below hm, addFinite_of_below (hbelow.2 hm)]
    exact addOrdered_negate (mt (orderedLane_eq_zero_iff hb (leads_of_magnitudeBelow hm)).1 (by rwa [add_comm]))
  · rw [addFinite_of_not_below hm, addFinite_of_not_below (mt hbelow.1 hm)]
    exact addOrdered_negate (mt (orderedLane_eq_zero_iff ha (leads_of_not_magnitudeBelow hm)).1 h)

/-- Exchanging two different finite operands negates the difference, exactly zero differences of zeros included (R177). -/
theorem addSub_exchange (mode : Rounding) {a b : Float128} (ha : isFinite a = true) (hb : isFinite b = true)
    (hne : a ≠ b) : addSub mode b a true = negate (addSub mode a b true) := by
  by_cases h : value a + value (effective true b) = 0
  · have hvalue : value a = value b := by
      rw [effective_true, value_negate] at h
      linarith
    have hsign : signOf b = !signOf a :=
      Bool.eq_not_of_ne fun hs => hne (eq_of_value_eq ha hb hvalue hs.symm)
    have h' : value b + value (effective true a) = 0 := by
      rw [effective_true, value_negate, hvalue]
      ring
    rw [addSub_zero mode true ha hb h, addSub_zero mode true hb ha h', ← signedZero_not, effective_true, effective_true,
      signOf_negate, signOf_negate, hsign]
    simp
  · have hneg : addFinite (negate a) b = (addFinite a (negate b)).negated := by
      simpa using addFinite_negate ha (b := negate b) (by simpa using hb) h
    rw [addSub_of_finite mode true hb ha, addSub_of_finite mode true ha hb, ← deliver_negated, effective_true,
      effective_true, addFinite_comm, hneg]

/-- Settles O48: the finite path and the resolver are symmetric; an exchange in SUBQ flips both effective operands. -/
theorem addCommutesAndSubtractAntiCommutes : Obligations.AddCommutesAndSubtractAntiCommutes := by
  intro mode s hna hnb
  refine ⟨⟨_, exec_add mode s, ?_⟩, fun ha hb hne => ⟨_, exec_sub mode s, ?_⟩, fun ha heq => ?_⟩
  · rw [exec_add, addSub_comm mode hna hnb]
  · rw [exec_sub, addSub_exchange mode ha hb hne]
  · have hzero := (exactZeroSumsTakeTheCancellationSign mode s ha (heq ▸ ha)).2 (by rw [heq, sub_self])
    rw [hzero, heq, Bool.and_not_self]

/-! ### Products with their factors exchanged (R193, R217) -/

theorem resolveMul_comm {a b : Float128} (ha : isNaN a = false) (hb : isNaN b = false) :
    resolveMul a b = resolveMul b a := by
  simp only [resolveMul, ha, hb, Bool.false_eq_true, if_false]
  rw [Bool.or_comm (isInf a), Bool.or_comm (isZero a), Bool.xor_comm]

theorem productExp_comm (ea eb : Int) : productExp ea eb = productExp eb ea := by
  rw [productExp, productExp, add_comm ea]

theorem mulFinite_comm (a b : Float128) : mulFinite a b = mulFinite b a := by
  unfold mulFinite
  dsimp only
  rw [Bool.xor_comm, productExp_comm, productFrame_comm]

theorem mul_comm_of_no_nan (mode : Rounding) {a b : Float128} (ha : isNaN a = false) (hb : isNaN b = false) :
    mul mode a b = mul mode b a := by
  rw [mul, mul, mulResult, mulResult, resolveMul_comm ha hb, mulFinite_comm]

theorem resolveFma_comm {a b : Float128} (c : Float128) (isSub : Bool) (ha : isNaN a = false) (hb : isNaN b = false) :
    resolveFma a b c isSub = resolveFma b a c isSub := by
  simp only [resolveFma, ha, hb, Bool.false_eq_true, if_false]
  rw [Bool.or_comm (isInf a), Bool.or_comm (isZero a), Bool.xor_comm]

theorem fmaFinite_comm (a b c : Float128) : fmaFinite a b c = fmaFinite b a c := by
  unfold fmaFinite
  dsimp only
  rw [Bool.xor_comm, productExp_comm, productFrame_comm]

theorem fma_comm_of_no_nan (mode : Rounding) {a b : Float128} (c : Float128) (isSub : Bool) (ha : isNaN a = false)
    (hb : isNaN b = false) : fma mode a b c isSub = fma mode b a c isSub := by
  rw [fma, fma, fmaResult, fmaResult, resolveFma_comm c isSub ha hb, fmaFinite_comm]

/-- Settles O49: resolver and product frame are symmetric in the factors. -/
theorem multiplyAndFusedFactorsCommute : Obligations.MultiplyAndFusedFactorsCommute := by
  rintro mode f s (rfl | rfl | rfl) ha hb
  · exact ⟨_, exec_mul mode s, by rw [exec_mul, mul_comm_of_no_nan mode ha hb]⟩
  · exact ⟨_, exec_fma mode s, by rw [exec_fma, fma_comm_of_no_nan mode _ false ha hb]⟩
  · exact ⟨_, exec_fms mode s, by rw [exec_fms, fma_comm_of_no_nan mode _ true ha hb]⟩

/-! ### A zero addend (R211 step 3, R217) -/

/-- With a zero addend the fused path hands on the product frame as it is (R211 step 3). -/
theorem fma_zero_addend (mode : Rounding) {a b c : Float128} (isSub : Bool) (ha : isNonzeroFinite a = true)
    (hb : isNonzeroFinite b = true) (hc : isZero c = true) : fma mode a b c isSub = mul mode a b := by
  have hcls : cls (effective isSub c) = .zero := by
    rw [← isZero_iff_cls]
    cases isSub <;> simpa using hc
  have hprod : fmaFinite a b (effective isSub c) = mulFinite a b := if_pos hcls
  rw [fma_of_finite mode isSub ha hb (isFinite_of_zero hc), mul_of_nonzeroFinite mode ha hb, hprod]

/-- Settles O50: both fused forms hand the product frame of MULQ to `NormRoundPack`. -/
theorem fusedWithAZeroAddendIsMultiply : Obligations.FusedWithAZeroAddendIsMultiply := by
  intro mode s ha hb hc
  rw [exec_fma, exec_fms, exec_mul, fma_zero_addend mode false ha hb hc, fma_zero_addend mode true ha hb hc]
  exact ⟨rfl, rfl⟩

end Sys2Proof.Machine
end

section
/-!
PROOFS. The command word (spec/30_encoding.md R60 to R63), the step, and what the ports carry (spec/10_state.md R26,
spec/20_memory.md R43, R46).
-/

namespace Sys2Proof.Machine

/-! ### The command word -/

/-- What the decoder may answer to a command word: the instruction of which it is the word, or its own refusal where it is not
well formed (R60, R63). -/
def decodesRight (op : BitVec 4) : Decoded → Bool
  | .instr i => commandWellFormed op && (op == encode i)
  | .reserved w => !commandWellFormed op && (w == op)
  | .notACommand _ => false

/-- The decoder answers so to each of the sixteen words. -/
theorem decodesRight_decode : ∀ op : BitVec 4, decodesRight op (decode op) = true := by decide

theorem decode_encode (i : Instr) : decode (encode i) = .instr i := by
  cases i <;> rfl

/-- The decoder has two answers, told apart by the well-formedness of the word. -/
theorem decode_cases (op : BitVec 4) :
    (commandWellFormed op = true ∧ ∃ i, op = encode i ∧ decode op = .instr i) ∨
    (commandWellFormed op = false ∧ decode op = .reserved op) := by
  have h := decodesRight_decode op
  cases hd : decode op with
  | instr i =>
    simp only [hd, decodesRight, Bool.and_eq_true, beq_iff_eq] at h
    exact .inl ⟨h.1, i, h.2, rfl⟩
  | reserved w =>
    simp only [hd, decodesRight, Bool.and_eq_true, Bool.not_eq_true', beq_iff_eq] at h
    exact .inr ⟨h.1, by rw [h.2]⟩
  | notACommand w =>
    rw [hd] at h
    exact absurd h Bool.false_ne_true

theorem decode_eq_instr_iff (i : Instr) (op : BitVec 4) : decode op = .instr i ↔ op = encode i := by
  refine ⟨fun h => ?_, fun h => h ▸ decode_encode i⟩
  rcases decode_cases op with ⟨-, j, hj, hd⟩ | ⟨-, hd⟩
  · rw [h] at hd
    cases hd
    exact hj
  · rw [h] at hd
    cases hd

theorem decode_eq_reserved_iff (op : BitVec 4) : decode op = .reserved op ↔ commandWellFormed op = false := by
  rcases decode_cases op with ⟨hwf, i, -, hd⟩ | ⟨hwf, hd⟩
  · simp [hwf, hd]
  · simp [hwf, hd]

theorem decode_ne_notACommand (op : BitVec 4) (w : Nat) : decode op ≠ .notACommand w := by
  rcases decode_cases op with ⟨-, i, -, hd⟩ | ⟨-, hd⟩
  · simp [hd]
  · simp [hd]

/-- Settles O1: both directions for the instructions, and the words that are none. -/
theorem commandWordsDecodeToTheirInstruction : Obligations.CommandWordsDecodeToTheirInstruction :=
  ⟨decode_eq_instr_iff, decode_eq_reserved_iff, decode_ne_notACommand⟩

/-- Settles O2: the decoder evaluated on the sixteen words. -/
theorem operationMapWordsDecode : Obligations.OperationMapWordsDecode := by
  unfold Obligations.OperationMapWordsDecode
  decide

/-! ### The step -/

theorem step_of_instr {s : State} {i : Instr} (h : decode s.op_i = .instr i) : step s = exec i s := by
  rw [step, h]

theorem step_of_reserved {s : State} {op : BitVec 4} (h : decode s.op_i = .reserved op) :
    step s = .refused (.reservedCommand op) := by
  rw [step, h]

/-- A table word that reads as an instruction is a value of the port that decodes to it (R61; log entry 5). -/
theorem decode_of_decodeTableWord {nbits w : Nat} {i : Instr} (h : decodeTableWord nbits w = some i) :
    decode (BitVec.ofNat 4 (w % 2 ^ nbits)) = .instr i := by
  have hword : decodeWord (w % 2 ^ nbits) = .instr i := by
    unfold decodeTableWord at h
    cases hd : decodeWord (w % 2 ^ nbits) <;> rw [hd] at h <;> cases h
    rfl
  unfold decodeWord at hword
  split_ifs at hword
  exact hword

/-- Settles O3: the step is the arm of the decoded instruction, on the port and for a placed table word. -/
theorem stepRunsTheDecodedInstruction : Obligations.StepRunsTheDecodedInstruction :=
  ⟨fun _ _ h => step_of_instr h, fun _ _ _ _ h => step_of_instr (decode_of_decodeTableWord h)⟩

/-- Settles O4: `fn` of 6 or more is what well-formedness excludes. -/
theorem reservedCommandsAreRefused : Obligations.ReservedCommandsAreRefused := fun s h =>
  step_of_reserved ((decode_eq_reserved_iff s.op_i).2 (decide_eq_false (by omega)))

/-- What an instruction answers, by function, as a value of its operands alone (R26, R60). -/
def result (i : Instr) (a b c : Float128) : Float128 :=
  match i.fn with
  | .add => addSub i.mode a b false
  | .sub => addSub i.mode a b true
  | .mul => mul i.mode a b
  | .div => div i.mode a b
  | .fma => fma i.mode a b c false
  | .fms => fma i.mode a b c true

/-- Every instruction answers in every state, a value of the operands, on the result port (R11, R26). -/
theorem exec_eq_result (i : Instr) (s : State) : exec i s = .next (s.respond (result i s.a_i s.b_i s.c_i)) := by
  cases i <;> rfl

/-- A step answers on the result port, or refuses the command on the port (R26, R63). -/
theorem step_cases (s : State) :
    (commandWellFormed s.op_i = true ∧
      ∃ i, decode s.op_i = .instr i ∧ step s = .next (s.respond (result i s.a_i s.b_i s.c_i))) ∨
    (commandWellFormed s.op_i = false ∧ step s = .refused (.reservedCommand s.op_i)) := by
  rcases decode_cases s.op_i with ⟨hwf, i, -, hd⟩ | ⟨hwf, hd⟩
  · exact .inl ⟨hwf, i, hd, (step_of_instr hd).trans (exec_eq_result i s)⟩
  · exact .inr ⟨hwf, step_of_reserved hd⟩

/-- A step that answers ran an instruction. -/
theorem step_eq_next {s t : State} (h : step s = .next t) :
    ∃ i, decode s.op_i = .instr i ∧ t = s.respond (result i s.a_i s.b_i s.c_i) := by
  rcases step_cases s with ⟨-, i, hd, hs⟩ | ⟨-, hs⟩
  · rw [h] at hs
    cases hs
    exact ⟨i, hd, rfl⟩
  · rw [h] at hs
    cases hs

/-- Settles O5: the answer stands on the result port, which is not one of the input ports. -/
theorem everyInstructionAnswersAndKeepsTheInputPorts : Obligations.EveryInstructionAnswersAndKeepsTheInputPorts := by
  refine ⟨fun i s => ⟨_, exec_eq_result i s, rfl, rfl, rfl, rfl⟩, fun s hwf => ?_⟩
  rcases step_cases s with ⟨-, i, -, hs⟩ | ⟨hill, -⟩
  · exact ⟨_, hs⟩
  · rw [hwf] at hill
    cases hill

/-- A function that is not fused does not read the third operand (R27, decision D20). -/
theorem result_of_not_fused {i : Instr} (h : i.fn.fused = false) (a b c c' : Float128) :
    result i a b c = result i a b c' := by
  unfold result
  cases hf : i.fn
  case fma => rw [hf] at h; cases h
  case fms => rw [hf] at h; cases h
  all_goals rfl

/-- Settles O6: the answer is a value of the operands, and the third one is not read. -/
theorem twoOperandResultsIgnoreTheThirdPort : Obligations.TwoOperandResultsIgnoreTheThirdPort := by
  intro i s c r h
  refine ⟨_, exec_eq_result i s, ?_⟩
  rw [exec_eq_result, result_of_not_fused h s.a_i s.b_i s.c_i c]

/-- Settles O8: the answered state has the operands of the state before, and answering puts the same value there again. -/
theorem answeringAgainChangesNothing : Obligations.AnsweringAgainChangesNothing := by
  intro s t h
  obtain ⟨i, hd, rfl⟩ := step_eq_next h
  exact (step_of_instr hd).trans (exec_eq_result i _)

/-! ### Requests -/

/-- A step answers the request on the input ports as the block would after reset: it reads nothing else (R26, R43). -/
theorem outcomeResult_step (s : State) : outcomeResult (step s) = answer s.request := by
  have hport : (State.reset.load s.request).op_i = s.op_i := rfl
  unfold answer
  rcases decode_cases s.op_i with ⟨-, i, -, hd⟩ | ⟨-, hd⟩
  · rw [step_of_instr hd, step_of_instr (hport ▸ hd), exec_eq_result, exec_eq_result]
    rfl
  · rw [step_of_reserved hd, step_of_reserved (hport ▸ hd)]

/-- Settles O7: by induction on the list; each request is answered as after reset, whatever state the ones before left. -/
theorem requestsDoNotDisturbOneAnother : Obligations.RequestsDoNotDisturbOneAnother := by
  intro s qs
  induction qs generalizing s with
  | nil => rfl
  | cons q qs ih => rw [serve, List.map_cons, ih, outcomeResult_step]; rfl

/-- Settles O9: the answer of ADDQ.RNE to +0 and +0, evaluated. -/
theorem portsAreSettledAtReset : Obligations.PortsAreSettledAtReset := by
  refine ⟨?_, by decide⟩
  show answer State.reset.request = some State.reset.result_o
  decide

/-- Settles O10: a step's answer is the one to the request on its input ports, which it leaves there; and no instruction
answers a signaling NaN. -/
theorem everyStepKeepsThePortsSettled : Obligations.EveryStepKeepsThePortsSettled := by
  intro s t q _ h
  obtain ⟨i, hd, ht⟩ := step_eq_next h
  have hrequest : t.request = (s.load q).request := by rw [ht]; rfl
  have hexec : exec i (s.load q) = .next t := (step_of_instr hd).symm.trans h
  refine ⟨?_, exec_isSNaN_eq_false i hexec⟩
  rw [Settled, hrequest, ← outcomeResult_step, h]
  rfl

/-! ### Quieting (R151) -/

/-- Settles O38: bit by bit; the class of a quieted NaN is read off its quiet bit, and a quiet NaN has it already. -/
theorem quietingSetsOneBit : Obligations.QuietingSetsOneBit := by
  intro x
  have hbit (k : Nat) : (quiet x).getLsbD k = (decide (k = 111) || x.getLsbD k) := by
    rw [quiet_getLsbD, Bool.or_comm]
  have hset {y : Float128} (hy : y.getLsbD 111 = true) : quiet y = y := by
    apply BitVec.eq_of_getLsbD_eq
    intro k _
    rw [quiet_getLsbD]
    by_cases hk : k = 111
    · rw [hk, hy, Bool.true_or]
    · rw [decide_eq_false hk, Bool.or_false]
  refine ⟨fun k _ => hbit k, cls_quiet_of_isNaN, fun hq => hset ?_, hset (by simp [hbit])⟩
  unfold cls at hq
  split_ifs at hq with h1 h2 h3 h4 h5
  simpa [fracOf] using h5

end Sys2Proof.Machine
end

section
/-!
PROOFS. The optional clocked wrapper (spec/10_state.md R28, spec/70_reset_and_hazards.md R251): what stands in a place of the
pipeline comes out that many cycles later, unless a reset drops it on the way.
-/

namespace Sys2Proof.Machine

/-- `rst_n` is released in the first `n + 1` cycles of an input sequence, as far as it goes. -/
def ReleasedFor (n : Nat) (ins : List WrapperIn) : Prop :=
  ∀ k ≤ n, ∀ j, ins[k]? = some j → j.rst_n = true

theorem releasedFor_zero_cons (i : WrapperIn) (is : List WrapperIn) : ReleasedFor 0 (i :: is) ↔ i.rst_n = true := by
  simp [ReleasedFor]

theorem releasedFor_succ_cons (n : Nat) (i : WrapperIn) (is : List WrapperIn) :
    ReleasedFor (n + 1) (i :: is) ↔ i.rst_n = true ∧ ReleasedFor n is := by
  constructor
  · intro h
    exact ⟨h 0 (by omega) i rfl, fun k hk j hj => h (k + 1) (by omega) j (by simpa using hj)⟩
  · rintro ⟨hi, h⟩ k hk j hj
    cases k with
    | zero =>
      obtain rfl : i = j := by simpa using hj
      exact hi
    | succ k => exact h k (by omega) j (by simpa using hj)

/-- The output of a cycle drives the place `v` of the pipeline if `live` holds, and nothing otherwise. -/
structure Drives (o : WrapperOut) (v : Option Float128) (live : Prop) : Prop where
  valid : o.valid_o = true ↔ v.isSome = true ∧ live
  result : ∀ x, v = some x → o.valid_o = true → o.result_o = x

theorem wrapperDrive_cons (n : Nat) (v : Option Float128) (rest : List (Option Float128)) :
    Drives (wrapperDrive n (v :: rest)) v True := by
  cases v with
  | none => exact ⟨by simp [wrapperDrive], fun x h => nomatch h⟩
  | some y => exact ⟨by simp [wrapperDrive], fun x h _ => by simpa [wrapperDrive] using h⟩

/-- A place that a reset empties drives nothing. -/
theorem Drives.of_reset {o : WrapperOut} {v : Option Float128} {released live : Prop} {r : Bool}
    (h : Drives o (if r then v else none) live) (hr : released ↔ r = true ∧ live) : Drives o v released := by
  cases r with
  | true => exact ⟨by simpa [hr] using h.valid, h.result⟩
  | false => exact ⟨by simpa [hr] using h.valid, fun x _ hv => by simp [h.valid] at hv⟩

/-- One cycle moves every place of the pipeline one step on, or empties it (R251). -/
theorem wrapperTick_pipe_getElem? {w : WrapperRegs} {j : Nat} {v : Option Float128} (i : WrapperIn)
    (h : w.pipe[j + 1]? = some v) : (wrapperTick w i).1.pipe[j]? = some (if i.rst_n then v else none) := by
  obtain ⟨hlt, hv⟩ := List.getElem?_eq_some_iff.1 h
  cases hr : i.rst_n with
  | true => simp [wrapperTick, wrapperLine, hr, List.getElem?_tail, List.getElem?_append_left hlt, h]
  | false => simp [wrapperTick, wrapperLine, hr, List.getElem?_tail, List.getElem?_append_left, hlt]

theorem wrapperTick_pipe_length (w : WrapperRegs) (i : WrapperIn) :
    (wrapperTick w i).1.pipe.length = w.pipe.length := by
  cases hr : i.rst_n <;> simp [wrapperTick, wrapperLine, hr]

/-- The request of a cycle enters behind the places of the pipeline (R28). -/
theorem wrapperTick_pipe_last {w : WrapperRegs} {n : Nat} (i : WrapperIn) (h : w.pipe.length = n + 1) :
    (wrapperTick w i).1.pipe[n]? = some (wrapperEntry w.cycle i) := by
  cases hr : i.rst_n <;> simp [wrapperTick, wrapperLine, hr, List.getElem?_tail, ← h]

/-- What stands in place `j` is driven in cycle `j`, if no reset comes before. -/
theorem wrapperRun_place {w : WrapperRegs} {ins : List WrapperIn} {j : Nat} {v : Option Float128} {o : WrapperOut}
    (hv : w.pipe[j]? = some v) (ho : (wrapperRun w ins)[j]? = some o) : Drives o v (ReleasedFor j ins) := by
  induction ins generalizing w j v with
  | nil => simp [wrapperRun] at ho
  | cons i is ih =>
    cases j with
    | zero =>
      obtain ⟨rest, hpipe⟩ : ∃ rest, w.pipe = v :: rest := by
        cases hp : w.pipe with
        | nil => simp [hp] at hv
        | cons x rest => exact ⟨rest, by simpa [hp] using hv⟩
      have ho' : wrapperDrive w.cycle (wrapperLine w i) = o := by simpa [wrapperRun, wrapperTick] using ho
      have hline : ∃ rest', wrapperLine w i = (if i.rst_n then v else none) :: rest' := by
        cases hr : i.rst_n <;> simp [wrapperLine, hpipe, hr, List.replicate_succ]
      obtain ⟨rest', hline⟩ := hline
      rw [hline] at ho'
      exact (ho' ▸ wrapperDrive_cons _ _ _).of_reset (by simp [releasedFor_zero_cons])
    | succ j =>
      exact (ih (wrapperTick_pipe_getElem? i hv) (by simpa [wrapperRun] using ho)).of_reset
        (releasedFor_succ_cons j i is)

/-- The place a cycle's request enters drives the request's answer (R28). -/
theorem Drives.request {o : WrapperOut} {n : Nat} {i : WrapperIn} {released live : Prop}
    (h : Drives o (wrapperEntry n i) live) (hr : released ↔ i.rst_n = true ∧ live) :
    (o.valid_o = true ↔ i.valid_i = true ∧ released) ∧ (o.valid_o = true → o.result_o = wrapperAnswer n i) := by
  have hsome : (wrapperEntry n i).isSome = true ↔ i.rst_n = true ∧ i.valid_i = true := by
    cases hrst : i.rst_n <;> cases hvalid : i.valid_i <;> simp [wrapperEntry, hrst, hvalid]
  refine ⟨?_, fun hv => h.result _ ?_ hv⟩
  · rw [h.valid, hsome, hr]
    tauto
  · obtain ⟨hrst, hvalid⟩ := hsome.1 (h.valid.1 hv).1
    simp [wrapperEntry, hrst, hvalid]

/-- A request is answered after as many cycles as the pipeline has places, if no reset comes before (R28, R251). -/
theorem wrapperRun_request {w : WrapperRegs} {ins : List WrapperIn} {t n : Nat} {i : WrapperIn} {o : WrapperOut}
    (hn : w.pipe.length = n) (hi : ins[t]? = some i) (ho : (wrapperRun w ins)[t + n]? = some o) :
    (o.valid_o = true ↔ i.valid_i = true ∧ ReleasedFor n (ins.drop t)) ∧
      (o.valid_o = true → o.result_o = wrapperAnswer (w.cycle + t) i) := by
  induction ins generalizing w t with
  | nil => simp at hi
  | cons i' is ih =>
    cases t with
    | zero =>
      obtain rfl : i' = i := by simpa using hi
      cases n with
      | zero =>
        have hpipe := List.length_eq_zero_iff.1 hn
        have ho' : wrapperDrive w.cycle [wrapperEntry w.cycle i'] = o := by
          simpa [wrapperRun, wrapperTick, wrapperLine, hpipe] using ho
        exact (ho' ▸ wrapperDrive_cons _ _ _).request (by simp [releasedFor_zero_cons])
      | succ n =>
        have hplace := wrapperRun_place (wrapperTick_pipe_last i' hn) (by simpa [wrapperRun] using ho)
        exact hplace.request (releasedFor_succ_cons n i' is)
    | succ t =>
      have hstep := ih (w := (wrapperTick w i').1) (t := t) ((wrapperTick_pipe_length w i').trans hn)
        (by simpa using hi) (by simpa [wrapperRun, Nat.add_right_comm] using ho)
      have hcycle : (wrapperTick w i').1.cycle + t = w.cycle + (t + 1) := by
        simp only [wrapperTick]
        omega
      rwa [hcycle] at hstep

theorem wrapperRun_length (w : WrapperRegs) (ins : List WrapperIn) : (wrapperRun w ins).length = ins.length := by
  induction ins generalizing w with
  | nil => rfl
  | cons i is ih => rw [wrapperRun, List.length_cons, List.length_cons, ih]

/-- Settles O52: the places of the pipeline are empty at reset, and the requests move through it. -/
theorem wrapperAnswersAfterItsLatency : Obligations.WrapperAnswersAfterItsLatency := by
  intro latency ins
  refine ⟨wrapperRun_length _ _, fun t o ht ho => ?_, fun t i o hi ho => ?_⟩
  · have hempty : (wrapperReset latency).pipe[t]? = some none := by simp [wrapperReset, ht]
    have hvalid := (wrapperRun_place hempty ho).valid
    simpa using hvalid
  · have h := wrapperRun_request (by simp [wrapperReset]) hi ho
    simpa [ReleasedFor, List.getElem?_drop, wrapperReset] using h

end Sys2Proof.Machine
end
